-- ==== Sys2Proof/Word.lean ====
section
/-! DEFINITION. The core's word types, and the operand classes and roles an instruction's syntax is built from. -/

namespace Sys2Proof

/-- A memory cell, register or stack entry: an unsigned 16-bit word (rules R8, R20, R28, R36). -/
abbrev Word := BitVec 16

/-- One byte of the input or output port (rules R64, R65). -/
abbrev Byte := BitVec 8

/-- A 32-bit register of the core: `pc`, `cap`, `fault_pc`, `fault_value` (rules R24, R29, R33). -/
abbrev Count := BitVec 32

/-- A register index, r0 to r7 (rule R20). -/
abbrev Reg := Fin 8

/-- The class an operand word falls into (rule R83). An `inv` operand carries its word, which a fault
reports (rule R87). -/
inductive Operand where
  /-- LIT: a word 0..32767, the literal number itself. -/
  | lit (v : BitVec 15)
  /-- REG: a word 32768..32775, a reference to a register. -/
  | reg (i : Reg)
  /-- INV: a word 32776..65535, invalid in every position. -/
  | inv (w : Word)
deriving DecidableEq, Repr

/-- The role of an operand position, fixed by the opcode (rule R84). -/
inductive Role where
  /-- V: a value operand, resolved to a number. -/
  | value
  /-- D: a destination operand, naming the register written. -/
  | dest
deriving DecidableEq, Repr

end Sys2Proof
end

