-- ==== Sys2Proof/Config.lean ====
section
/-! DEFINITION. The implementation parameters of rule R7: the fixed ones, and STACK_MAX, which the spec leaves open. -/

namespace Sys2Proof

/-- `MEM_WORDS`, the number of memory cells (rule R7). -/
def memWords : Nat := 32768

/-- `REG_BASE`, the first register-reference word (rule R7). -/
def regBase : Nat := 32768

/-- `STACK_INIT_CAP`, the initial and minimum stack capacity (rule R7). -/
def stackInitCap : Nat := 32

/-- The largest value `STACK_MAX` may have, `2^31 - 1` (rule R7, decision D14). -/
def stackMaxBound : Nat := 2147483647

@[simp] theorem memWords_eq : memWords = 32768 := by decide
@[simp] theorem regBase_eq : regBase = 32768 := by decide
@[simp] theorem stackInitCap_eq : stackInitCap = 32 := by decide
@[simp] theorem stackMaxBound_eq : stackMaxBound = 2147483647 := by decide

/-- What an implementation fixes. `STACK_MAX` is the spec's one OPEN parameter ("a model takes `STACK_MAX` as
an argument", decision D14). -/
structure Config where
  /-- `STACK_MAX`, the physical stack depth in words. -/
  stackMax : Nat
deriving DecidableEq, Repr

/-- The range rule R7 gives the parameter. -/
abbrev Config.wf (c : Config) : Prop := 1 ≤ c.stackMax ∧ c.stackMax ≤ stackMaxBound

/-- The configuration of the reset state. DESIGN CHOICE (log entry 1): the spec gives no depth; this is the
largest one it allows. -/
def Config.atReset : Config := ⟨stackMaxBound⟩

end Sys2Proof
end

