-- ==== Sys2Proof/Syntax.lean ====
section
/-! DEFINITION. The instructions: one constructor per row of the opcode map (rule R89). -/

namespace Sys2Proof

/-- An instruction with its operands in the order a, b, c. Every operand position holds any operand word, as
the decode unit latches it (rule R106); which words are accepted is WellFormed.lean's business. -/
inductive Instr where
  /-- 0: stop. -/
  | halt
  /-- 1: `x[a] = resolve b`. -/
  | set (a b : Operand)
  /-- 2: push `resolve a`. -/
  | push (a : Operand)
  /-- 3: pop into `x[a]`. -/
  | pop (a : Operand)
  /-- 4: `x[a] = 1` when `b` and `c` are equal, else 0. -/
  | eq (a b c : Operand)
  /-- 5: `x[a] = 1` when `b > c`, else 0. -/
  | gt (a b c : Operand)
  /-- 6: jump to `a`. -/
  | jmp (a : Operand)
  /-- 7: jump to `b` when `a` is not zero. -/
  | jt (a b : Operand)
  /-- 8: jump to `b` when `a` is zero. -/
  | jf (a b : Operand)
  /-- 9: `x[a] = (b + c) mod 32768`. -/
  | add (a b c : Operand)
  /-- 10: `x[a] = (b * c) mod 32768`. -/
  | mult (a b c : Operand)
  /-- 11: `x[a] = b mod c`. -/
  | mod (a b c : Operand)
  /-- 12: `x[a] = b & c`. -/
  | and (a b c : Operand)
  /-- 13: `x[a] = b | c`. -/
  | or (a b c : Operand)
  /-- 14: `x[a]` = the 15-bit complement of `b`. -/
  | not (a b : Operand)
  /-- 15: `x[a] = M[b]`. -/
  | rmem (a b : Operand)
  /-- 16: `M[a] = b`. -/
  | wmem (a b : Operand)
  /-- 17: push the next address and jump to `a`. -/
  | call (a : Operand)
  /-- 18: pop and jump, or stop on an empty stack. -/
  | ret
  /-- 19: emit `a` as one byte. -/
  | out (a : Operand)
  /-- 20: `in`, read one byte into `x[a]`. -/
  | in_ (a : Operand)
  /-- 21: no effect. -/
  | noop
deriving DecidableEq, Repr

/-- The operands in position order, each with the role the opcode map gives its position (rules R84, R89). -/
def Instr.operands : Instr → List (Role × Operand)
  | .halt | .ret | .noop => []
  | .push a | .jmp a | .call a | .out a => [(.value, a)]
  | .pop a | .in_ a => [(.dest, a)]
  | .jt a b | .jf a b | .wmem a b => [(.value, a), (.value, b)]
  | .set a b | .not a b | .rmem a b => [(.dest, a), (.value, b)]
  | .eq a b c | .gt a b c | .add a b c | .mult a b c | .mod a b c | .and a b c | .or a b c =>
    [(.dest, a), (.value, b), (.value, c)]

end Sys2Proof
end

