-- ==== Sys2Proof/WellFormed.lean ====
section
/-! DEFINITION. Which operands an instruction may have: the accepted classes of each role (rule R84). -/

namespace Sys2Proof

/-- A V operand accepts LIT and REG, a D operand accepts REG only (rules R84, R87, R88). -/
def Operand.fits : Role → Operand → Bool
  | .value, .lit _ => true
  | .value, .reg _ => true
  | .value, .inv _ => false
  | .dest, .lit _ => false
  | .dest, .reg _ => true
  | .dest, .inv _ => false

/-- Every operand fits its role: the instruction passes the decode unit's operand check (rule R107). -/
def Instr.wellFormed (i : Instr) : Bool := i.operands.all fun o => o.2.fits o.1

end Sys2Proof
end

