-- ==== Sys2Proof/Decode.lean ====
section
/-! DEFINITION. From words to instructions and back, by the encoding tables of 30_encoding.md. -/

namespace Sys2Proof

/-- The class of an operand word (rule R83). -/
def Operand.ofWord (w : Word) : Operand :=
  if w.toNat ≤ 32767 then .lit (BitVec.ofNat 15 w.toNat)
  else if w.toNat ≤ 32775 then .reg (Fin.ofNat 8 (w.toNat - regBase))
  else .inv w

/-- The word that stands for an operand (rule R83). -/
def Operand.toWord : Operand → Word
  | .lit v => v.setWidth 16
  | .reg i => BitVec.ofNat 16 (regBase + i.val)
  | .inv w => w

/-- Why a sequence of words is no instruction. -/
inductive DecodeError where
  /-- There is no opcode word. -/
  | noOpcodeWord
  /-- The opcode word is 22 or more (rules R82, R105). -/
  | invalidOpcode (op : Word)
  /-- The words end before operand `k`, counted from 1 (rule R106). -/
  | missingOperand (k : Nat)
deriving DecidableEq, Repr

/-- The operand count of an opcode word, `none` for an invalid one (rule R89's argc column). -/
def argc (op : Word) : Option Nat :=
  match op.toNat with
  | 0 | 18 | 21 => some 0
  | 2 | 3 | 6 | 17 | 19 | 20 => some 1
  | 1 | 7 | 8 | 14 | 15 | 16 => some 2
  | 4 | 5 | 9 | 10 | 11 | 12 | 13 => some 3
  | _ => none

/-- Format F1: one operand word (rule R81). -/
def decodeF1 (mk : Operand → Instr) : List Word → Except DecodeError (Instr × List Word)
  | a :: rest => .ok (mk (.ofWord a), rest)
  | [] => .error (.missingOperand 1)

/-- Format F2: two operand words (rule R81). -/
def decodeF2 (mk : Operand → Operand → Instr) : List Word → Except DecodeError (Instr × List Word)
  | a :: b :: rest => .ok (mk (.ofWord a) (.ofWord b), rest)
  | [_] => .error (.missingOperand 2)
  | [] => .error (.missingOperand 1)

/-- Format F3: three operand words (rule R81). -/
def decodeF3 (mk : Operand → Operand → Operand → Instr) :
    List Word → Except DecodeError (Instr × List Word)
  | a :: b :: c :: rest => .ok (mk (.ofWord a) (.ofWord b) (.ofWord c), rest)
  | [_, _] => .error (.missingOperand 3)
  | [_] => .error (.missingOperand 2)
  | [] => .error (.missingOperand 1)

/-- The decoder: the first instruction of a sequence of words and the words after it, or the reason there is
none. The opcode word is compared whole (rule R82) by the opcode map (rule R89). -/
def decode : List Word → Except DecodeError (Instr × List Word)
  | [] => .error .noOpcodeWord
  | op :: ws =>
    match op.toNat with
    | 0 => .ok (.halt, ws)
    | 1 => decodeF2 .set ws
    | 2 => decodeF1 .push ws
    | 3 => decodeF1 .pop ws
    | 4 => decodeF3 .eq ws
    | 5 => decodeF3 .gt ws
    | 6 => decodeF1 .jmp ws
    | 7 => decodeF2 .jt ws
    | 8 => decodeF2 .jf ws
    | 9 => decodeF3 .add ws
    | 10 => decodeF3 .mult ws
    | 11 => decodeF3 .mod ws
    | 12 => decodeF3 .and ws
    | 13 => decodeF3 .or ws
    | 14 => decodeF2 .not ws
    | 15 => decodeF2 .rmem ws
    | 16 => decodeF2 .wmem ws
    | 17 => decodeF1 .call ws
    | 18 => .ok (.ret, ws)
    | 19 => decodeF1 .out ws
    | 20 => decodeF1 .in_ ws
    | 21 => .ok (.noop, ws)
    | _ => .error (.invalidOpcode op)

/-- The opcode number of an instruction (rule R89's op column). -/
def Instr.opcode : Instr → Word
  | .halt => 0
  | .set _ _ => 1
  | .push _ => 2
  | .pop _ => 3
  | .eq _ _ _ => 4
  | .gt _ _ _ => 5
  | .jmp _ => 6
  | .jt _ _ => 7
  | .jf _ _ => 8
  | .add _ _ _ => 9
  | .mult _ _ _ => 10
  | .mod _ _ _ => 11
  | .and _ _ _ => 12
  | .or _ _ _ => 13
  | .not _ _ => 14
  | .rmem _ _ => 15
  | .wmem _ _ => 16
  | .call _ => 17
  | .ret => 18
  | .out _ => 19
  | .in_ _ => 20
  | .noop => 21

/-- The encoder: the opcode word, then the operand words in order (rule R80). -/
def encode (i : Instr) : List Word := i.opcode :: i.operands.map fun o => o.2.toWord

/-- The length of an instruction in words (rule R80). -/
def Instr.length (i : Instr) : Nat := 1 + i.operands.length

/-- The four words of an instruction whose bits are `w`, bit 0 the least significant bit of the first word, the
bits from `nbits` on taken as 0. Four words is the longest instruction (rule R80). -/
def tableWords (nbits w : Nat) : List Word :=
  let v := w % 2 ^ nbits
  [BitVec.ofNat 16 v, BitVec.ofNat 16 (v >>> 16), BitVec.ofNat 16 (v >>> 32), BitVec.ofNat 16 (v >>> 48)]

/-- What the decoder reads from an instruction whose bits are `w`, numbered as the opcode table numbers them. -/
def decodeTableWord (nbits w : Nat) : Option Instr :=
  match decode (tableWords nbits w) with
  | .ok (i, _) => some i
  | .error _ => none

/-- The mnemonic of an instruction (rule R89). -/
def Instr.mnemonic : Instr → String
  | .halt => "halt"
  | .set _ _ => "set"
  | .push _ => "push"
  | .pop _ => "pop"
  | .eq _ _ _ => "eq"
  | .gt _ _ _ => "gt"
  | .jmp _ => "jmp"
  | .jt _ _ => "jt"
  | .jf _ _ => "jf"
  | .add _ _ _ => "add"
  | .mult _ _ _ => "mult"
  | .mod _ _ _ => "mod"
  | .and _ _ _ => "and"
  | .or _ _ _ => "or"
  | .not _ _ => "not"
  | .rmem _ _ => "rmem"
  | .wmem _ _ => "wmem"
  | .call _ => "call"
  | .ret => "ret"
  | .out _ => "out"
  | .in_ _ => "in"
  | .noop => "noop"

/-- A register prints as r0 to r7, any other operand word as its decimal number (rule R93). -/
def Operand.assembly : Operand → String
  | .reg i => "r" ++ Nat.repr i.val
  | o => Nat.repr o.toWord.toNat

/-- The assembler line of an instruction: the mnemonic, then the operands separated by commas (rule R93). -/
def Instr.assembly (i : Instr) : String :=
  match i.operands with
  | [] => i.mnemonic
  | os => i.mnemonic ++ " " ++ String.intercalate "," (os.map fun o => o.2.assembly)

end Sys2Proof
end

