-- ==== Sys2Proof/Machine/State.lean ====
section
/-! DEFINITION. The state of the core, as plain data: every field of 10_state.md, the port queues, and the
implementation's parameters. -/

namespace Sys2Proof.Machine

/-- The run states (rule R31). -/
inductive RunState where
  | running
  /-- Ended normally (rule R237). -/
  | halted
  /-- Ended by a fault (rule R232). -/
  | errored
  /-- Ended by a checkpoint request (rules R241, R242). -/
  | checkpointed
deriving DecidableEq, Repr

/-- Which normal termination set HALTED (rule R32). -/
inductive HaltReason where
  | none
  /-- HALT_INSTR: the `halt` instruction. -/
  | haltInstr
  /-- PC_OUT_OF_RANGE: a fetch at `pc >= 32768`. -/
  | pcOutOfRange
  /-- RET_EMPTY: `ret` with an empty stack. -/
  | retEmpty
deriving DecidableEq, Repr

/-- The fault causes (rule R231). -/
inductive FaultCause where
  | none
  | invalidOpcode
  | operandFetchOutOfBounds
  | invalidOperand
  | invalidDestination
  | stackUnderflow
  | divideByZero
  | memoryAddressOutOfBounds
  | stackOverflow
  | stackInvariant
deriving DecidableEq, Repr

/-- Memory as the list of its cells that do not hold 0, addresses rising. An address that is not listed holds
0, the value a program load gives every cell outside the image (rules R36, R270). -/
structure Memory where
  cells : List (Nat × Word)
deriving DecidableEq, Repr

/-- The canonical form: addresses strictly rising, each a cell of the machine (rule R50), none holding 0. -/
abbrev Memory.wf (m : Memory) : Prop :=
  m.cells.Pairwise (fun c d => c.1 < d.1) ∧ ∀ c ∈ m.cells, c.1 < memWords ∧ c.2 ≠ 0

/-- The state of the machine. -/
structure State where
  /-- `x[0..7]` (rule R20). -/
  regs : Vector Word 8
  /-- The program counter, a word address (rule R24). -/
  pc : Count
  /-- `S`, bottom first; `used` is its length (rule R28). -/
  stack : List Word
  /-- `cap`, the capacity register (rule R29). -/
  cap : Count
  /-- `run_state` (rule R31). -/
  runState : RunState
  /-- `halt_reason` (rule R32). -/
  haltReason : HaltReason
  /-- `fault_cause` (rule R33). -/
  faultCause : FaultCause
  /-- `fault_pc` (rule R33). -/
  faultPc : Count
  /-- `fault_value` (rule R33). -/
  faultValue : Count
  /-- `pending_in` (rule R34). -/
  pendingIn : Option Reg
  /-- `ckpt_req` (rule R35). -/
  ckptReq : Bool
  /-- `M[0..32767]` (rule R36). -/
  mem : Memory
  /-- The bytes the host has offered and the core has not consumed, oldest first (rules R37, R64). -/
  input : List Byte
  /-- The bytes emitted on the output port, oldest first (rules R65, R117). -/
  output : List Byte
  /-- The model's own field: the parameter the spec leaves open (rule R37, decision D14). No step writes it. -/
  config : Config
deriving DecidableEq, Repr

/-- Why `step` answers no next state. The spec's own faults are not these: they are next states whose
`run_state` is ERRORED (rule R232). -/
inductive Fault where
  /-- Raised by `step` in HALTED, ERRORED and CHECKPOINTED, where no step is enabled (rule R116). Safe: the model
  stops where the hardware stops. -/
  | runEnded
  /-- Raised by `step` while an `in` waits and the host has offered no byte: a stuck state, not an end (rules R101,
  R117). Safe: the hardware waits here too, and a step after the host offers a byte goes on. -/
  | awaitingInput
deriving DecidableEq, Repr

/-- Why an instruction has no meaning. -/
inductive Refusal where
  /-- Raised by `exec` for an instruction the model gives no meaning; every instruction has one. Safe. -/
  | notModelled (mnemonic : String)
deriving DecidableEq, Repr

/-- The state after reset: a program load of zero words (rule R270). `input`, `output` (log entry 3) and `config`
(log entry 1) are DESIGN CHOICES. -/
def State.reset : State where
  regs := #v[0, 0, 0, 0, 0, 0, 0, 0]
  pc := 0
  stack := []
  cap := 32
  runState := .running
  haltReason := .none
  faultCause := .none
  faultPc := 0
  faultValue := 0
  pendingIn := none
  ckptReq := false
  mem := ⟨[]⟩
  input := []
  output := []
  config := .atReset

end Sys2Proof.Machine
end

