-- ==== Sys2Proof/Machine/Ops.lean ====
section
/-! DEFINITION. The named operations over memory, registers, stack, ports and run state that the instruction rules
share: the primitives of rule R10, raising a fault, and the signal handling of rules R110 and R111. -/

namespace Sys2Proof.Machine

/-! ### Memory -/

/-- The word at address `a` in a list of cells, 0 where it is not listed. -/
def readCells (a : Nat) : List (Nat × Word) → Word
  | [] => 0
  | (b, v) :: rest => if a = b then v else readCells a rest

/-- The cells with `w` at address `a`, kept in order, without an entry that holds 0. -/
def writeCells (a : Nat) (w : Word) : List (Nat × Word) → List (Nat × Word)
  | [] => if w = 0 then [] else [(a, w)]
  | (b, v) :: rest =>
    if a < b then (if w = 0 then (b, v) :: rest else (a, w) :: (b, v) :: rest)
    else if a = b then (if w = 0 then rest else (a, w) :: rest)
    else (b, v) :: writeCells a w rest

/-- `MemRead(a, 1)` (rules R10, R63). Every use checks `a < 32768` first (rule R56). -/
def Memory.read (m : Memory) (a : Nat) : Word := readCells a m.cells

/-- `MemWrite(a, 1, w)`: all 16 bits, no mask (rules R10, R54). Every use checks `a < 32768` first. -/
def Memory.write (m : Memory) (a : Nat) (w : Word) : Memory := ⟨writeCells a w m.cells⟩

/-- The cells of a block of words laid out from address `a`. -/
def cellsOfWords (a : Nat) : List Word → List (Nat × Word)
  | [] => []
  | w :: ws => if w = 0 then cellsOfWords (a + 1) ws else (a, w) :: cellsOfWords (a + 1) ws

/-- The memory that holds the words from address 0 and 0 elsewhere (rule R270). -/
def Memory.ofWords (ws : List Word) : Memory := ⟨cellsOfWords 0 ws⟩

/-! ### Registers and program counter -/

/-- The 15-bit value domain: `v mod 32768` (rule R9). -/
def mask15 (v : Nat) : Word := BitVec.ofNat 16 (v % 32768)

/-- `x[i]`: the stored 16-bit value, no mask (rules R10, R23). -/
def State.readReg (s : State) (i : Reg) : Word := s.regs[i]

/-- `x[i] <- v`: the register write port stores `mask15(v)` (rule R22). -/
def State.writeReg (s : State) (i : Reg) (v : Nat) : State := { s with regs := s.regs.set i (mask15 v) }

/-- `pc <- pc + n`, the advance past an instruction of `n` words (rule R108). -/
def State.advance (s : State) (n : Nat) : State := { s with pc := s.pc + BitVec.ofNat 32 n }

/-- `pc <- zext_32(w)`: an absolute target (rule R195). -/
def State.jump (s : State) (w : Word) : State := { s with pc := w.setWidth 32 }

/-- A memory write by an instruction, of a 15-bit value (rule R132). -/
def State.writeMem (s : State) (a : Nat) (v : Nat) : State := { s with mem := s.mem.write a (mask15 v) }

/-- `OutByte(b)`: the host accepts at once (rule R65). -/
def State.outByte (s : State) (b : Byte) : State := { s with output := s.output ++ [b] }

/-! ### Faults and ends of a run -/

/-- `raise Fault(c, v)` by the instruction at `p`: the one transition that takes a fault. There is no handler and
`pc` is not written (rules R232, R235). There is no return from it (rule R236). -/
def State.raise (s : State) (p : Count) (c : FaultCause) (v : Count) : State :=
  { s with runState := .errored, faultCause := c, faultPc := p, faultValue := v }

/-- `stop(r)`: a normal termination (rules R32, R237). -/
def State.stop (s : State) (r : HaltReason) : State := { s with runState := .halted, haltReason := r }

/-- Taking a latched checkpoint request, at an instruction boundary (rule R241, where `pending_in` is already none)
or while an `in` waits (rule R242). -/
def State.takeCheckpoint (s : State) : State :=
  { s with ckptReq := false, pendingIn := none, runState := .checkpointed }

/-! ### The stack controller -/

/-- `used` (rule R28). -/
def State.used (s : State) : Nat := s.stack.length

/-- `used` as the 32-bit value a fault records (rule R231). -/
def State.usedCount (s : State) : Count := BitVec.ofNat 32 s.used

/-- `StackPush(v)`: the state with `v` pushed, or the fault's cause and value (rule R140). -/
def State.stackPush (s : State) (v : Word) : Except (FaultCause × Count) State :=
  if s.cap.toNat ≤ s.used then .error (.stackInvariant, s.usedCount)
  else if s.config.stackMax ≤ s.used then .error (.stackOverflow, s.usedCount)
  else .ok { s with stack := s.stack ++ [v] }

/-- `StackPop()`: the top entry and the state without it, `none` for EMPTY (rule R141). -/
def State.stackPop (s : State) : Option (Word × State) :=
  match s.stack.getLast? with
  | none => none
  | some v => some (v, { s with stack := s.stack.dropLast })

/-- The capacity `reconcile` leaves, given `used` and `cap` (rule R144). -/
def reconciledCap (used : Nat) (cap : Count) : Count :=
  if used = cap.toNat then BitVec.ofNat 32 (cap.toNat * 2)
  else if stackInitCap < cap.toNat ∧ used < cap.toNat / 4 then BitVec.ofNat 32 (cap.toNat / 2)
  else cap

/-- `post_instruction(p)` after an instruction that continues (rule R111). -/
def State.postInstruction (s : State) (p : Count) : State :=
  if s.cap.toNat < s.used then s.raise p .stackInvariant s.usedCount
  else { s with cap := reconciledCap s.used s.cap }

/-! ### Signals -/

/-- What an instruction rule returns (rule R109). -/
inductive Signal where
  /-- CONTINUE. -/
  | cont
  /-- STOP(r). -/
  | stop (r : HaltReason)
  /-- FAULT(c, v). -/
  | fault (c : FaultCause) (v : Count)
  /-- WAIT_INPUT(i), returned by `in` only. -/
  | waitInput (i : Reg)
deriving DecidableEq, Repr

/-- Step 5 and 6 of the instruction step for the instruction at `p` (rules R102, R110). -/
def State.signal (s : State) (p : Count) : Signal → State
  | .cont => s.postInstruction p
  | .stop r => s.stop r
  | .fault c v => s.raise p c v
  | .waitInput i => { s with pendingIn := some i }

/-- Steps 3c to 6 of the instruction step, for an instruction of `len` words whose operands have passed: advance,
execute, handle the signal (rules R102, R108). `body` sees the advanced `pc`. -/
def State.execute (s : State) (len : Nat) (body : State → State × Signal) : State :=
  let r := body (s.advance len)
  r.1.signal s.pc r.2

end Sys2Proof.Machine
end

