-- ==== Sys2Proof/Machine/Operands.lean ====
section
/-! DEFINITION. The operand forms: `resolve` and the operand check of the decode phase (rules R83 to R88, R107). -/

namespace Sys2Proof.Machine

/-- `resolve(w)`: a literal is its own value, a register reference the register's stored value, unmasked (rule
R85). The operand check runs first, so an INV word is never resolved; its own word stands for it here. -/
def State.resolve (s : State) : Operand → Word
  | .lit v => v.setWidth 16
  | .reg i => s.readReg i
  | .inv w => w

/-- The check of a V operand: an INV word raises INVALID_OPERAND (rules R87, R107), any other is resolved. The
registers are those at the start of the execute phase, since nothing is written before it (rules R103, R112). -/
def State.withValue (s : State) (o : Operand) (k : Word → State) : State :=
  match o with
  | .inv w => s.raise s.pc .invalidOperand (w.setWidth 32)
  | o => k (s.resolve o)

/-- The check of a D operand: an INV word raises INVALID_OPERAND, a LIT word INVALID_DESTINATION (rules R87, R88,
R107); a register reference gives its index (rule R86). -/
def State.withDest (s : State) (o : Operand) (k : Reg → State) : State :=
  match o with
  | .inv w => s.raise s.pc .invalidOperand (w.setWidth 32)
  | .lit v => s.raise s.pc .invalidDestination (v.setWidth 32)
  | .reg i => k i

end Sys2Proof.Machine
end

