-- ==== Sys2Proof/Machine/Alu.lean ====
section
/-! DEFINITION. The ALU dispatcher and its eight instructions (43_alu.md). -/

namespace Sys2Proof.Machine

/-- The ALU functions (rules R90, R160). -/
inductive AluFn where
  | eq | gt | add | mul | mod | and | or | not
deriving DecidableEq, Repr

/-- The ALU function an opcode selects, `none` for the opcodes that use none (rule R90). -/
def aluFn? (opcode : Nat) : Option AluFn :=
  match opcode with
  | 4 => some .eq
  | 5 => some .gt
  | 9 => some .add
  | 10 => some .mul
  | 11 => some .mod
  | 12 => some .and
  | 13 => some .or
  | 14 => some .not
  | _ => none

/-- `alu(f, x, y)`, exact on naturals; the write port masks the result (rule R160). NOT takes `x` only. -/
def alu (f : AluFn) (x y : Nat) : Nat :=
  match f with
  | .eq => if x = y then 1 else 0
  | .gt => if y < x then 1 else 0
  | .add => (x + y) % 32768
  | .mul => (x * y) % 32768
  | .mod => x % y
  | .and => x &&& y
  | .or => x ||| y
  | .not => 0x7FFF ^^^ x

/-- The shared shape of the two-source ALU instructions that cannot fault (rules R161 to R164, R166, R167): the
sources are read before the destination is written (rule R112). -/
def State.aluBinary (s : State) (f : AluFn) (a b c : Operand) : State :=
  s.withDest a fun d => s.withValue b fun x => s.withValue c fun y =>
    s.execute 4 fun t => (t.writeReg d (alu f x.toNat y.toNat), .cont)

/-- `eq a, b, c` (rule R161). -/
def execEq (a b c : Operand) (s : State) : Host.Outcome State Fault Refusal :=
  .next (s.aluBinary .eq a b c)

/-- `gt a, b, c` (rule R162). -/
def execGt (a b c : Operand) (s : State) : Host.Outcome State Fault Refusal :=
  .next (s.aluBinary .gt a b c)

/-- `add a, b, c` (rule R163). -/
def execAdd (a b c : Operand) (s : State) : Host.Outcome State Fault Refusal :=
  .next (s.aluBinary .add a b c)

/-- `mult a, b, c` (rule R164). -/
def execMult (a b c : Operand) (s : State) : Host.Outcome State Fault Refusal :=
  .next (s.aluBinary .mul a b c)

/-- `mod a, b, c`: a zero divisor is the fault DIVIDE_BY_ZERO (rule R165). -/
def execMod (a b c : Operand) (s : State) : Host.Outcome State Fault Refusal :=
  .next (s.withDest a fun d => s.withValue b fun x => s.withValue c fun y =>
    s.execute 4 fun t =>
      if y = 0 then (t, .fault .divideByZero 0)
      else (t.writeReg d (alu .mod x.toNat y.toNat), .cont))

/-- `and a, b, c` (rule R166). -/
def execAnd (a b c : Operand) (s : State) : Host.Outcome State Fault Refusal :=
  .next (s.aluBinary .and a b c)

/-- `or a, b, c` (rule R167). -/
def execOr (a b c : Operand) (s : State) : Host.Outcome State Fault Refusal :=
  .next (s.aluBinary .or a b c)

/-- `not a, b` (rule R168). -/
def execNot (a b : Operand) (s : State) : Host.Outcome State Fault Refusal :=
  .next (s.withDest a fun d => s.withValue b fun x =>
    s.execute 3 fun t => (t.writeReg d (alu .not x.toNat 0), .cont))

end Sys2Proof.Machine
end

