-- ==== Sys2Proof/Machine/Control.lean ====
section
/-! DEFINITION. Control transfer: jmp, jt, jf, call, ret (44_control.md). -/

namespace Sys2Proof.Machine

/-- `jmp a` (rule R190). -/
def execJmp (a : Operand) (s : State) : Host.Outcome State Fault Refusal :=
  .next (s.withValue a fun target =>
    s.execute 2 fun t => (t.jump target, .cont))

/-- `jt a, b`: taken when the condition is not zero (rule R191). -/
def execJt (a b : Operand) (s : State) : Host.Outcome State Fault Refusal :=
  .next (s.withValue a fun cond => s.withValue b fun target =>
    s.execute 3 fun t => (if cond ≠ 0 then t.jump target else t, .cont))

/-- `jf a, b`: taken when the condition is zero (rule R192). -/
def execJf (a b : Operand) (s : State) : Host.Outcome State Fault Refusal :=
  .next (s.withValue a fun cond => s.withValue b fun target =>
    s.execute 3 fun t => (if cond = 0 then t.jump target else t, .cont))

/-- `call a`: the pushed value is the advanced `pc`, at most 32768 in every step, so 16 bits hold it (rule R193). -/
def execCall (a : Operand) (s : State) : Host.Outcome State Fault Refusal :=
  .next (s.withValue a fun target =>
    s.execute 2 fun t =>
      match t.stackPush (t.pc.setWidth 16) with
      | .ok u => (u.jump target, .cont)
      | .error (c, n) => (t, .fault c n))

/-- `ret`: an empty stack is a normal termination (rule R194). -/
def execRet (s : State) : Host.Outcome State Fault Refusal :=
  .next (s.execute 1 fun t =>
    match t.stackPop with
    | none => (t, .stop .retEmpty)
    | some (v, u) => (u.jump v, .cont))

end Sys2Proof.Machine
end

