-- ==== Sys2Proof/Machine/Move.lean ====
section
/-! DEFINITION. Register and memory moves: set, rmem, wmem (41_move.md). -/

namespace Sys2Proof.Machine

/-- `set a, b` (rule R130). -/
def execSet (a b : Operand) (s : State) : Host.Outcome State Fault Refusal :=
  .next (s.withDest a fun d => s.withValue b fun v =>
    s.execute 3 fun t => (t.writeReg d v.toNat, .cont))

/-- `rmem a, b` (rule R131). -/
def execRmem (a b : Operand) (s : State) : Host.Outcome State Fault Refusal :=
  .next (s.withDest a fun d => s.withValue b fun addr =>
    s.execute 3 fun t =>
      if memWords ≤ addr.toNat then (t, .fault .memoryAddressOutOfBounds (addr.setWidth 32))
      else (t.writeReg d (t.mem.read addr.toNat).toNat, .cont))

/-- `wmem a, b` (rule R132). -/
def execWmem (a b : Operand) (s : State) : Host.Outcome State Fault Refusal :=
  .next (s.withValue a fun addr => s.withValue b fun v =>
    s.execute 3 fun t =>
      if memWords ≤ addr.toNat then (t, .fault .memoryAddressOutOfBounds (addr.setWidth 32))
      else (t.writeMem addr.toNat v.toNat, .cont))

end Sys2Proof.Machine
end

