-- ==== Sys2Proof/Machine/Stack.lean ====
section
/-! DEFINITION. The stack instructions: push, pop (42_stack.md section 2). -/

namespace Sys2Proof.Machine

/-- `push a`: the value is pushed unmasked (rule R142). -/
def execPush (a : Operand) (s : State) : Host.Outcome State Fault Refusal :=
  .next (s.withValue a fun v =>
    s.execute 2 fun t =>
      match t.stackPush v with
      | .ok u => (u, .cont)
      | .error (c, n) => (t, .fault c n))

/-- `pop a`: an empty stack is the fault STACK_UNDERFLOW (rule R143). -/
def execPop (a : Operand) (s : State) : Host.Outcome State Fault Refusal :=
  .next (s.withDest a fun d =>
    s.execute 2 fun t =>
      match t.stackPop with
      | none => (t, .fault .stackUnderflow 0)
      | some (v, u) => (u.writeReg d v.toNat, .cont))

end Sys2Proof.Machine
end

