-- ==== Sys2Proof/Machine/System.lean ====
section
/-! DEFINITION. System and I/O instructions: halt, noop, out, in (45_system_io.md), with the second half of `in`. -/

namespace Sys2Proof.Machine

/-- `halt` (rule R210). -/
def execHalt (s : State) : Host.Outcome State Fault Refusal :=
  .next (s.execute 1 fun t => (t, .stop .haltInstr))

/-- `noop` (rule R211). -/
def execNoop (s : State) : Host.Outcome State Fault Refusal :=
  .next (s.execute 1 fun t => (t, .cont))

/-- `out a`: the low 8 bits are emitted (rule R212). -/
def execOut (a : Operand) (s : State) : Host.Outcome State Fault Refusal :=
  .next (s.withValue a fun v =>
    s.execute 2 fun t => (t.outByte (v.setWidth 8), .cont))

/-- `in a`, issue half: wait for an input byte (rule R213). -/
def execIn (a : Operand) (s : State) : Host.Outcome State Fault Refusal :=
  .next (s.withDest a fun d =>
    s.execute 2 fun t => (t, .waitInput d))

/-- `in a`, completion half, for the waiting register `i`: the input-completion step (rule R214). With neither a
request nor a byte it is not enabled (rules R101, R117). -/
def inputCompletion (i : Reg) (s : State) : Host.Outcome State Fault Refusal :=
  if s.ckptReq then .next s.takeCheckpoint
  else match s.input with
    | [] => .fault .awaitingInput
    | b :: rest =>
      .next (({ s with input := rest, pendingIn := none }.writeReg i b.toNat).postInstruction (s.pc - 2))

end Sys2Proof.Machine
end

