-- ==== Sys2Proof/Machine/Fetch.lean ====
section
/-! DEFINITION. Fetch and decode: the instruction step up to the operand check (rules R102, R104 to R106). -/

namespace Sys2Proof.Machine

/-- Up to `n` words from address `a` on, in increasing order, ending at the last cell of memory (rule R106). -/
def Memory.readWords (m : Memory) (a : Nat) : Nat → List Word
  | 0 => []
  | n + 1 => if a < memWords then m.read a :: m.readWords (a + 1) n else []

/-- The words of the instruction at `p`: the opcode word, then as many operand words as the opcode has and memory
holds (rules R80, R106). -/
def Memory.fetchWords (m : Memory) (p : Nat) : List Word :=
  let op := m.read p
  op :: m.readWords (p + 1) ((argc op).getD 0)

/-- The fault a failed decoding of the words at `p` raises, with its value (rules R105, R106). `fetchWords` never
gives an empty list, so the first case does not arise. -/
def decodeFault (p : Count) : DecodeError → FaultCause × Count
  | .noOpcodeWord => (.operandFetchOutOfBounds, p)
  | .invalidOpcode op => (.invalidOpcode, op.setWidth 32)
  | .missingOperand k => (.operandFetchOutOfBounds, p + BitVec.ofNat 32 k)

/-- The instruction step up to the operand check: the instruction to execute, or the state in which the step ends
before any instruction runs, in the order of rules R102 and R234. -/
def State.fetch (s : State) : Except State Instr :=
  if s.ckptReq then .error s.takeCheckpoint
  else if memWords ≤ s.pc.toNat then .error (s.stop .pcOutOfRange)
  else match decode (s.mem.fetchWords s.pc.toNat) with
    | .ok (i, _) => .ok i
    | .error e => .error (s.raise s.pc (decodeFault s.pc e).1 (decodeFault s.pc e).2)

/-- The state with the words stored at `a`, `a + 1`, … -/
def Memory.writeWords (m : Memory) (a : Nat) : List Word → Memory
  | [] => m
  | w :: ws => (m.write a w).writeWords (a + 1) ws

/-- The state in which the next step fetches the words: they stand at `pc`, or at 0 where `pc` leaves no room for
four words, and the core is ready to take an instruction step (log entry 6). -/
def State.placeWords (s : State) (ws : List Word) : State :=
  let p : Count := if s.pc.toNat + 4 ≤ memWords then s.pc else 0
  { s with
    pc := p
    mem := s.mem.writeWords p.toNat ws
    runState := .running
    pendingIn := none
    ckptReq := false }

end Sys2Proof.Machine
end

