-- ==== Sys2Proof/Machine/Step.lean ====
section
/-! DEFINITION. The step of the core (rules R101, R102, R214). -/

namespace Sys2Proof.Machine

/-- The instruction step (rule R102). -/
def instructionStep (s : State) : Host.Outcome State Fault Refusal :=
  match s.fetch with
  | .error t => .next t
  | .ok i => exec i s

/-- One step: in RUNNING the instruction step, or the input-completion step while an `in` waits (rule R101). The
other run states are terminal and enable no step (rule R116). -/
def step (s : State) : Host.Outcome State Fault Refusal :=
  match s.runState, s.pendingIn with
  | .running, none => instructionStep s
  | .running, some i => inputCompletion i s
  | .halted, _ => .fault .runEnded
  | .errored, _ => .fault .runEnded
  | .checkpointed, _ => .fault .runEnded

/-- `s` with the instruction of bits `w` placed where the next step fetches it, and ready to take that step: the
host's tool, which stands for a program load (log entry 6), not an operation of the hardware. -/
def State.withFetchWord (s : State) (nbits w : Nat) : State := s.placeWords (tableWords nbits w)

end Sys2Proof.Machine
end

