-- ==== Sys2Proof/Machine/HostPort.lean ====
section
/-! DEFINITION. What the host can do to the core between two steps: the input port, the checkpoint request, and
the host state port (rules R64, R67, R239, R270, R271, R273). -/

namespace Sys2Proof.Machine

/-! ### Input port and checkpoint request -/

/-- The host offers one more byte of its stream (rule R64). -/
def State.offerByte (s : State) (b : Byte) : State := { s with input := s.input ++ [b] }

/-- The host raises the checkpoint request: latched while RUNNING, ignored in any other run state (rule R239). -/
def State.requestCheckpoint (s : State) : State :=
  if s.runState = .running then { s with ckptReq := true } else s

/-! ### Program load -/

/-- The state a program load of the words `ws` leaves (rule R270). The port queues and the parameter are no part of
a load (log entry 3). -/
def State.programLoaded (s : State) (ws : List Word) : State where
  regs := #v[0, 0, 0, 0, 0, 0, 0, 0]
  pc := 0
  stack := []
  cap := 32
  runState := .running
  haltReason := .none
  faultCause := .none
  faultPc := 0
  faultValue := 0
  pendingIn := none
  ckptReq := false
  mem := .ofWords ws
  input := s.input
  output := s.output
  config := s.config

/-- Program load by the host, `none` where it is refused: the port is not available while RUNNING (rule R67), and
an image has at most 32768 words (rule R273). -/
def State.programLoad (s : State) (ws : List Word) : Option State :=
  if s.runState = .running then none
  else if memWords < ws.length then none
  else some (s.programLoaded ws)

/-! ### State images: snapshot and restore -/

/-- A state image (rule R67); `used` is the length of `stack`. -/
structure StateImage where
  mem : Memory
  regs : Vector Word 8
  stack : List Word
  cap : Count
  pc : Count
deriving DecidableEq, Repr

/-- The image of a state (rule R67). -/
def State.image (s : State) : StateImage where
  mem := s.mem
  regs := s.regs
  stack := s.stack
  cap := s.cap
  pc := s.pc

/-- Snapshot, `none` while RUNNING. It reads the image and changes no state (rule R67). -/
def State.snapshot (s : State) : Option StateImage :=
  if s.runState = .running then none else some s.image

/-- The state a restore of the image leaves: everything verbatim, the status cleared (rule R271). -/
def State.restored (s : State) (img : StateImage) : State where
  regs := img.regs
  pc := img.pc
  stack := img.stack
  cap := img.cap
  runState := .running
  haltReason := .none
  faultCause := .none
  faultPc := 0
  faultValue := 0
  pendingIn := none
  ckptReq := false
  mem := img.mem
  input := s.input
  output := s.output
  config := s.config

/-- Restore by the host, `none` where it is refused: while RUNNING (rule R67), and for an image with
`stack_used > STACK_MAX` (rule R273). -/
def State.restore (s : State) (img : StateImage) : Option State :=
  if s.runState = .running then none
  else if s.config.stackMax < img.stack.length then none
  else some (s.restored img)

end Sys2Proof.Machine
end

