-- ==== Sys2Proof/Machine/Codec.lean ====
section
/-! DEFINITION. The host's files, which the spec gives for information: program files (rules R52, R273) and
checkpoint files (rule R68). All integers are little-endian. -/

namespace Sys2Proof.Machine

/-- The two bytes of a word, low byte first (rule R52). -/
def wordBytes (w : Word) : List Byte := [w.extractLsb' 0 8, w.extractLsb' 8 8]

/-- The four bytes of a 32-bit integer, low byte first (rule R68). -/
def countBytes (c : Count) : List Byte :=
  [c.extractLsb' 0 8, c.extractLsb' 8 8, c.extractLsb' 16 8, c.extractLsb' 24 8]

/-- The words of a program file, `none` for an odd number of bytes (rules R52, R273). -/
def wordsOfBytes : List Byte → Option (List Word)
  | [] => some []
  | [_] => none
  | lo :: hi :: rest =>
    match wordsOfBytes rest with
    | none => none
    | some ws => some ((hi ++ lo) :: ws)

/-- The image in a program file, `none` where the host refuses the file (rule R273). -/
def programOfFile (bs : List Byte) : Option (List Word) :=
  match wordsOfBytes bs with
  | none => none
  | some ws => if memWords < ws.length then none else some ws

/-- The checkpoint file of an image: the six fields of rule R68 in order, the stack bottom first. -/
def checkpointFile (img : StateImage) : List Byte :=
  ((List.range memWords).map img.mem.read).flatMap wordBytes
    ++ img.regs.toList.flatMap wordBytes
    ++ countBytes (BitVec.ofNat 32 img.stack.length)
    ++ countBytes img.cap
    ++ img.stack.flatMap wordBytes
    ++ countBytes img.pc

/-- The first `n` words of a file and the bytes after them, `none` where the file ends inside them. -/
def takeWords : Nat → List Byte → Option (List Word × List Byte)
  | 0, bs => some ([], bs)
  | n + 1, lo :: hi :: rest =>
    match takeWords n rest with
    | none => none
    | some (ws, bs) => some ((hi ++ lo) :: ws, bs)
  | _ + 1, _ => none

/-- The 32-bit integer at the start of a file and the bytes after it, `none` where the file ends inside it. -/
def takeCount : List Byte → Option (Count × List Byte)
  | b0 :: b1 :: b2 :: b3 :: rest => some (b3 ++ b2 ++ b1 ++ b0, rest)
  | _ => none

/-- The image in a checkpoint file, `none` for a file truncated mid-field (rules R68, R273). Bytes after the last
field are not looked at (log entry 11). -/
def imageOfFile (bs : List Byte) : Option StateImage := do
  let (mem, bs) ← takeWords memWords bs
  let (regs, bs) ← takeWords 8 bs
  let (used, bs) ← takeCount bs
  let (cap, bs) ← takeCount bs
  let (stack, bs) ← takeWords used.toNat bs
  let (pc, _) ← takeCount bs
  some ⟨.ofWords mem, .ofFn fun i => regs.getD i.val 0, stack, cap, pc⟩

end Sys2Proof.Machine
end

