-- ==== Sys2Proof/Machine/Flags.lean ====
section
/-! DEFINITION. The core has no flags, condition codes or predicates (rule R26): no instruction computes one. The
only status is the run's, and this file holds the encodings of the status outputs (rules R31, R32, R231, R66). -/

namespace Sys2Proof.Machine

/-- `run_state` as 2 bits (rule R31). -/
def RunState.code : RunState → BitVec 2
  | .running => 0
  | .halted => 1
  | .errored => 2
  | .checkpointed => 3

/-- `halt_reason` as 2 bits (rule R32). -/
def HaltReason.code : HaltReason → BitVec 2
  | .none => 0
  | .haltInstr => 1
  | .pcOutOfRange => 2
  | .retEmpty => 3

/-- `fault_cause` as 4 bits; codes 10 to 15 are reserved and never produced (rule R231). -/
def FaultCause.code : FaultCause → BitVec 4
  | .none => 0
  | .invalidOpcode => 1
  | .operandFetchOutOfBounds => 2
  | .invalidOperand => 3
  | .invalidDestination => 4
  | .stackUnderflow => 5
  | .divideByZero => 6
  | .memoryAddressOutOfBounds => 7
  | .stackOverflow => 8
  | .stackInvariant => 9

/-- What the host reads at the status outputs (rule R66). -/
structure StatusOutputs where
  runState : BitVec 2
  haltReason : BitVec 2
  faultCause : BitVec 4
  faultPc : Count
  faultValue : Count
deriving DecidableEq, Repr

/-- The status outputs; the host may read them at any time (rule R66). -/
def State.statusOutputs (s : State) : StatusOutputs where
  runState := s.runState.code
  haltReason := s.haltReason.code
  faultCause := s.faultCause.code
  faultPc := s.faultPc
  faultValue := s.faultValue

end Sys2Proof.Machine
end

