-- ==== Sys2Proof/Safety.lean ====
section
/-! DEFINITION. The terms claims are stated in: what a part of the state being unchanged means, the invariants of
the machine, and runs of the core together with its host. -/

namespace Sys2Proof.Machine

/-! ### Frames -/

/-- Every register holds what it held. -/
def SameRegs (s t : State) : Prop := ∀ r : Reg, t.readReg r = s.readReg r

/-- Every register but `d` holds what it held. -/
def SameRegsBut (d : Reg) (s t : State) : Prop := ∀ r : Reg, r ≠ d → t.readReg r = s.readReg r

/-- Every address of memory reads as it did. -/
def SameMem (s t : State) : Prop := ∀ a : Nat, t.mem.read a = s.mem.read a

/-- Every address of memory but `b` reads as it did. -/
def SameMemBut (b : Nat) (s t : State) : Prop := ∀ a : Nat, a ≠ b → t.mem.read a = s.mem.read a

/-- The stack and its capacity are as they were. -/
def SameStack (s t : State) : Prop := t.stack = s.stack ∧ t.cap = s.cap

/-- The status registers are as they were (rules R31 to R33). -/
def SameStatus (s t : State) : Prop :=
  t.runState = s.runState ∧ t.haltReason = s.haltReason ∧ t.faultCause = s.faultCause ∧
    t.faultPc = s.faultPc ∧ t.faultValue = s.faultValue

/-- No input is pending that was not, no request is latched or taken, and the parameter is the same. -/
def SameControl (s t : State) : Prop :=
  t.pendingIn = s.pendingIn ∧ t.ckptReq = s.ckptReq ∧ t.config = s.config

/-- The bytes consumed and emitted are as they were (rules R64, R65). -/
def SamePorts (s t : State) : Prop := t.input = s.input ∧ t.output = s.output

/-- An instruction that continued and passed the post-instruction check: status and control are as they were, and
`cap` is what the reconcile makes of the new `used` (rules R110, R111, R144). -/
def Continues (s t : State) : Prop :=
  SameStatus s t ∧ SameControl s t ∧ t.cap = reconciledCap t.used s.cap

/-- The instruction at `p` raised the fault: the fault record is written and the run is ERRORED, `halt_reason` is
as it was (rule R232). -/
def Faulted (p : Count) (c : FaultCause) (v : Count) (s t : State) : Prop :=
  t.runState = .errored ∧ t.faultCause = c ∧ t.faultPc = p ∧ t.faultValue = v ∧ t.haltReason = s.haltReason

/-- Everything but `pc` and the status registers is as it was. -/
def SameData (s t : State) : Prop :=
  SameRegs s t ∧ SameMem s t ∧ SameStack s t ∧ SameControl s t ∧ SamePorts s t

/-- An instruction of `len` words wrote the value `v` to register `d` and nothing else but `pc`, and continued. -/
def WroteReg (d : Reg) (v len : Nat) (s t : State) : Prop :=
  (t.readReg d).toNat = v ∧ SameRegsBut d s t ∧ t.pc = s.pc + BitVec.ofNat 32 len ∧ SameMem s t ∧
    t.stack = s.stack ∧ SamePorts s t ∧ Continues s t

/-- An instruction of `len` words raised a fault in its execute phase: nothing changed but the fault record,
`run_state` and the advanced `pc` (rule R233). -/
def FaultedInExecute (c : FaultCause) (v : Count) (len : Nat) (s t : State) : Prop :=
  Faulted s.pc c v s t ∧ t.pc = s.pc + BitVec.ofNat 32 len ∧ SameData s t

/-- The core is about to take an instruction step and no checkpoint request is latched (rules R101, R102). -/
def State.ready (s : State) : Prop := s.runState = .running ∧ s.pendingIn = none ∧ s.ckptReq = false

/-- The cause an operand that fails the check raises: an INV word INVALID_OPERAND, a LIT word, which only a D position
refuses, INVALID_DESTINATION (rules R87, R88). -/
def operandFaultCause : Operand → FaultCause
  | .inv _ => .invalidOperand
  | .lit _ => .invalidDestination
  | .reg _ => .none

/-! ### Invariants -/

/-- The status registers agree with the run state, and an `in` waits or a request is latched only while RUNNING
(rules R32 to R35, R232, R239). -/
def State.statusWf (s : State) : Prop :=
  (s.haltReason ≠ .none ↔ s.runState = .halted) ∧
  (s.faultCause ≠ .none ↔ s.runState = .errored) ∧
  (s.faultCause = .none → s.faultPc = 0 ∧ s.faultValue = 0) ∧
  (s.pendingIn ≠ none → s.runState = .running) ∧
  (s.ckptReq = true → s.runState = .running)

/-- What holds of every state the core and its host can reach, restored states among them: memory is in canonical
form, the stack fits its physical depth, the parameter is in range, the status is consistent. -/
def State.wf (s : State) : Prop :=
  s.mem.wf ∧ s.used ≤ s.config.stackMax ∧ s.config.wf ∧ s.statusWf

/-- What holds besides of every state reached from a program load without a restore: registers hold 15-bit values
(rule R23), `pc` and the stack entries are at most 32768 (conflict C4), `cap` is a power of two of at least 32 and
`used` is below it, and STACK_INVARIANT was not raised (rule R145). -/
def State.loadInv (s : State) : Prop :=
  s.wf ∧
  (∀ r : Reg, (s.readReg r).toNat < 32768) ∧
  s.pc.toNat ≤ 32768 ∧
  (∀ w ∈ s.stack, w.toNat ≤ 32768) ∧
  (∃ k, 5 ≤ k ∧ k ≤ 31 ∧ s.cap.toNat = 2 ^ k) ∧
  s.used < s.cap.toNat ∧
  s.faultCause ≠ .stackInvariant

/-! ### Runs of the core with its host -/

/-- What happens next: a step of the core, or an act of the host between two steps. -/
inductive Event where
  /-- The core takes a step. -/
  | step
  /-- The host offers a byte (rule R64). -/
  | offer (b : Byte)
  /-- The host raises the checkpoint request (rule R239). -/
  | request
  /-- The host loads a program (rule R270). -/
  | load (ws : List Word)
  /-- The host restores an image (rule R271). -/
  | restore (img : StateImage)
  /-- The host starts the core after a load or restore, which has already made it RUNNING: no state changes (rule
  R67, log entry 9). -/
  | start
deriving DecidableEq, Repr

/-- The state after an event, `none` where the event cannot happen. -/
def State.apply (s : State) : Event → Option State
  | .step => match step s with
    | .next t => some t
    | .fault _ => none
    | .refused _ => none
  | .offer b => some (s.offerByte b)
  | .request => some s.requestCheckpoint
  | .load ws => s.programLoad ws
  | .restore img => s.restore img
  | .start => some s

/-- The state after a sequence of events, `none` where one of them cannot happen. -/
def State.applyAll (s : State) : List Event → Option State
  | [] => some s
  | e :: es => match s.apply e with
    | none => none
    | some t => t.applyAll es

/-- An event of a run that has no restore (rule R145). -/
def Event.isRestore : Event → Bool
  | .step => false
  | .offer _ => false
  | .request => false
  | .load _ => false
  | .restore _ => true
  | .start => false

/-- An image a host can restore holds its memory in canonical form (log entry 10). -/
def Event.wf : Event → Prop
  | .step => True
  | .offer _ => True
  | .request => True
  | .load _ => True
  | .restore img => img.mem.wf
  | .start => True

end Sys2Proof.Machine
end

