-- ==== Sys2Proof/Certificates/Slice0/Obligations.lean ====
section
/-! DEFINITION. The statements for the provers. Each cites the rules of the spec it formalises. -/

open Sys2Proof Sys2Proof.Machine

/-! ### Encoding -/

/-- Decoding the encoding of a well-formed instruction gives it back, with all its operands and the words after it
(rules R80, R83, R89). -/
def Obligations.DecodeOfEncodeIsTheInstruction : Prop :=
  ∀ (i : Instr) (rest : List Word), i.wellFormed = true → decode (encode i ++ rest) = .ok (i, rest)

/-- The words an instruction was decoded from are its encoding: no word means two instructions, and the opcode word
alone fixes the length, 1 to 4 words (rules R80, R92). -/
def Obligations.EncodeOfDecodeIsTheWords : Prop :=
  ∀ (op : Word) (ws rest : List Word) (i : Instr), decode (op :: ws) = .ok (i, rest) →
    encode i ++ rest = op :: ws ∧ argc op = some i.operands.length ∧
      (encode i).length = 1 + i.operands.length ∧ i.operands.length ≤ 3

/-- Rules R82 and R105: an opcode word is valid exactly when it is 0 to 21, which is the bit-level test; any other
raises INVALID_OPCODE with the word as value, `pc` not advanced and nothing else written. -/
def Obligations.OpcodeWordsValidOrFault : Prop :=
  (∀ (op : Word) (ws : List Word), decode (op :: ws) = .error (.invalidOpcode op) ↔ 22 ≤ op.toNat) ∧
  (∀ op : Word, op.toNat ≤ 21 ↔ op.extractLsb' 5 11 = 0 ∧ (op.extractLsb' 0 5).toNat ≤ 21) ∧
  (∀ s : State, s.ready → s.pc.toNat < 32768 → 22 ≤ (s.mem.read s.pc.toNat).toNat →
    step s = .next
      { s with
        runState := .errored
        faultCause := .invalidOpcode
        faultPc := s.pc
        faultValue := (s.mem.read s.pc.toNat).setWidth 32 })

/-- Rule R83: every operand word falls into exactly one class, by its range and by its bits. -/
def Obligations.OperandWordsHaveOneClass : Prop :=
  ∀ w : Word,
    (w.toNat ≤ 32767 ∧ w.getLsbD 15 = false ∧ ∃ v, Operand.ofWord w = .lit v ∧ v.toNat = w.toNat) ∨
    (32768 ≤ w.toNat ∧ w.toNat ≤ 32775 ∧ w.getLsbD 15 = true ∧ w.extractLsb' 3 12 = 0 ∧
      ∃ i, Operand.ofWord w = .reg i ∧ i.val = w.toNat - 32768 ∧ i.val = (w.extractLsb' 0 3).toNat) ∨
    (32776 ≤ w.toNat ∧ w.getLsbD 15 = true ∧ w.extractLsb' 3 12 ≠ 0 ∧ Operand.ofWord w = .inv w)

/-- Words written out from rules R81, R83 and R89 decode to the instructions they stand for. -/
def Obligations.SampleWordsDecode : Prop :=
  decode [1, 32770, 1234] = .ok (.set (.reg 2) (.lit 1234), []) ∧
  decode [3, 32769] = .ok (.pop (.reg 1), []) ∧
  decode [9, 32768, 32769, 4] = .ok (.add (.reg 0) (.reg 1) (.lit 4), []) ∧
  decode [8, 32775, 20] = .ok (.jf (.reg 7) (.lit 20), []) ∧
  decode [16, 100, 32769] = .ok (.wmem (.lit 100) (.reg 1), []) ∧
  decode [18] = .ok (.ret, []) ∧
  decode [20, 32771] = .ok (.in_ (.reg 3), [])

/-- Rules R80, R81, R84 and R89, row by row: the opcode word, the number of operand words and their order, for every
operand word, and the role of each position. -/
def Obligations.OpcodeMapRows : Prop :=
  ∀ (a b c : Word) (x y z : Operand) (rest : List Word),
    decode (0 :: rest) = .ok (.halt, rest) ∧
    decode (1 :: a :: b :: rest) = .ok (.set (.ofWord a) (.ofWord b), rest) ∧
    decode (2 :: a :: rest) = .ok (.push (.ofWord a), rest) ∧
    decode (3 :: a :: rest) = .ok (.pop (.ofWord a), rest) ∧
    decode (4 :: a :: b :: c :: rest) = .ok (.eq (.ofWord a) (.ofWord b) (.ofWord c), rest) ∧
    decode (5 :: a :: b :: c :: rest) = .ok (.gt (.ofWord a) (.ofWord b) (.ofWord c), rest) ∧
    decode (6 :: a :: rest) = .ok (.jmp (.ofWord a), rest) ∧
    decode (7 :: a :: b :: rest) = .ok (.jt (.ofWord a) (.ofWord b), rest) ∧
    decode (8 :: a :: b :: rest) = .ok (.jf (.ofWord a) (.ofWord b), rest) ∧
    decode (9 :: a :: b :: c :: rest) = .ok (.add (.ofWord a) (.ofWord b) (.ofWord c), rest) ∧
    decode (10 :: a :: b :: c :: rest) = .ok (.mult (.ofWord a) (.ofWord b) (.ofWord c), rest) ∧
    decode (11 :: a :: b :: c :: rest) = .ok (.mod (.ofWord a) (.ofWord b) (.ofWord c), rest) ∧
    decode (12 :: a :: b :: c :: rest) = .ok (.and (.ofWord a) (.ofWord b) (.ofWord c), rest) ∧
    decode (13 :: a :: b :: c :: rest) = .ok (.or (.ofWord a) (.ofWord b) (.ofWord c), rest) ∧
    decode (14 :: a :: b :: rest) = .ok (.not (.ofWord a) (.ofWord b), rest) ∧
    decode (15 :: a :: b :: rest) = .ok (.rmem (.ofWord a) (.ofWord b), rest) ∧
    decode (16 :: a :: b :: rest) = .ok (.wmem (.ofWord a) (.ofWord b), rest) ∧
    decode (17 :: a :: rest) = .ok (.call (.ofWord a), rest) ∧
    decode (18 :: rest) = .ok (.ret, rest) ∧
    decode (19 :: a :: rest) = .ok (.out (.ofWord a), rest) ∧
    decode (20 :: a :: rest) = .ok (.in_ (.ofWord a), rest) ∧
    decode (21 :: rest) = .ok (.noop, rest) ∧
    Instr.halt.operands = [] ∧
    Instr.ret.operands = [] ∧
    Instr.noop.operands = [] ∧
    (Instr.push x).operands = [(.value, x)] ∧
    (Instr.jmp x).operands = [(.value, x)] ∧
    (Instr.call x).operands = [(.value, x)] ∧
    (Instr.out x).operands = [(.value, x)] ∧
    (Instr.pop x).operands = [(.dest, x)] ∧
    (Instr.in_ x).operands = [(.dest, x)] ∧
    (Instr.jt x y).operands = [(.value, x), (.value, y)] ∧
    (Instr.jf x y).operands = [(.value, x), (.value, y)] ∧
    (Instr.wmem x y).operands = [(.value, x), (.value, y)] ∧
    (Instr.set x y).operands = [(.dest, x), (.value, y)] ∧
    (Instr.not x y).operands = [(.dest, x), (.value, y)] ∧
    (Instr.rmem x y).operands = [(.dest, x), (.value, y)] ∧
    (Instr.eq x y z).operands = [(.dest, x), (.value, y), (.value, z)] ∧
    (Instr.gt x y z).operands = [(.dest, x), (.value, y), (.value, z)] ∧
    (Instr.add x y z).operands = [(.dest, x), (.value, y), (.value, z)] ∧
    (Instr.mult x y z).operands = [(.dest, x), (.value, y), (.value, z)] ∧
    (Instr.mod x y z).operands = [(.dest, x), (.value, y), (.value, z)] ∧
    (Instr.and x y z).operands = [(.dest, x), (.value, y), (.value, z)] ∧
    (Instr.or x y z).operands = [(.dest, x), (.value, y), (.value, z)]

/-! ### The step -/

/-- Rule R102: where the words at `pc` decode to an instruction, the step is that instruction's meaning at the same
state. `exec` itself checks the operands, advances `pc`, executes and handles the signal. -/
def Obligations.StepRunsTheDecodedInstruction : Prop :=
  ∀ (s : State) (i : Instr) (rest : List Word), s.ready → s.pc.toNat < 32768 →
    decode (s.mem.fetchWords s.pc.toNat) = .ok (i, rest) → step s = exec i s

/-- Rules R80, R102 and R106, from the words of memory: where the encoding of a well-formed instruction stands at
`pc`, within memory, the step runs that instruction. -/
def Obligations.StepRunsTheEncodedWords : Prop :=
  ∀ (s : State) (i : Instr), s.ready → i.wellFormed = true → s.pc.toNat + i.length ≤ 32768 →
    (∀ k, k < i.length → (encode i)[k]? = some (s.mem.read (s.pc.toNat + k))) → step s = exec i s

/-- Rule R101: which step is enabled, and that none is enabled in any other state. -/
def Obligations.StepEnabledExactlyInRunning : Prop :=
  (∀ s : State, s.runState = .running → s.pendingIn = none → step s = instructionStep s) ∧
  (∀ (s : State) (i : Reg), s.runState = .running → s.pendingIn = some i → step s = inputCompletion i s) ∧
  (∀ s : State, (∃ t, step s = .next t) ↔
    s.runState = .running ∧ (s.pendingIn = none ∨ s.input ≠ [] ∨ s.ckptReq = true))

/-- Rule R104: every `pc` of 32768 or more at an instruction step ends the run normally. -/
def Obligations.FetchPastMemoryHalts : Prop :=
  ∀ s : State, s.ready → 32768 ≤ s.pc.toNat →
    step s = .next { s with runState := .halted, haltReason := .pcOutOfRange }

/-- Rule R106: the operand words are latched raw in increasing address order, or the first address past memory,
32768, is the value of an OPERAND_FETCH_OUT_OF_BOUNDS. -/
def Obligations.OperandFetchLatchesOrFaults : Prop :=
  ∀ (s : State) (n : Nat), s.ready → s.pc.toNat < 32768 → argc (s.mem.read s.pc.toNat) = some n →
    (s.pc.toNat + n < 32768 → s.mem.fetchWords s.pc.toNat =
      s.mem.read s.pc.toNat :: (List.range n).map fun k => s.mem.read (s.pc.toNat + 1 + k)) ∧
    (32768 ≤ s.pc.toNat + n → step s = .next
      { s with
        runState := .errored
        faultCause := .operandFetchOutOfBounds
        faultPc := s.pc
        faultValue := 32768 })

/-- Rule R107: operands are checked in position order, and the first that fails raises its fault: an INV word
INVALID_OPERAND, a LIT word in a D position INVALID_DESTINATION. Nothing but the fault record is written. -/
def Obligations.OperandCheckInPositionOrder : Prop :=
  ∀ (s : State) (i : Instr) (before after : List (Role × Operand)) (r : Role) (o : Operand),
    i.operands = before ++ (r, o) :: after → (∀ q ∈ before, q.2.fits q.1 = true) → o.fits r = false →
    ((∃ w, o = .inv w) ∨ (r = .dest ∧ ∃ v, o = .lit v)) ∧
    exec i s = .next
      { s with
        runState := .errored
        faultCause := operandFaultCause o
        faultPc := s.pc
        faultValue := o.toWord.setWidth 32 }

/-- Rules R111 and R233, third point. Take any instruction that continues from a state when its capacity is `c`, and
let the state's own capacity be below the `used` this leaves, which only a restore makes possible. At its own capacity
`push` and `call` find no free slot, fault in their execute phase and push nothing (rule R140). Every other instruction
ends in STACK_INVARIANT with that `used` as value, and its effects stand: registers, memory, stack, `pc` and output are
those it has with the capacity `c`. -/
def Obligations.PostInstructionFaultKeepsEffects : Prop :=
  ∀ (i : Instr) (s u : State) (c : Count), exec i { s with cap := c } = .next u →
    u.runState = .running → u.pendingIn = none → s.cap.toNat < u.used →
    ∃ t, exec i s = .next t ∧
      ((∀ a, i ≠ .push a ∧ i ≠ .call a) →
        Faulted s.pc .stackInvariant u.usedCount s t ∧ SameRegs u t ∧ SameMem u t ∧ t.stack = u.stack ∧
          t.pc = u.pc ∧ SamePorts u t ∧ t.cap = s.cap ∧ SameControl s t) ∧
      ((∃ a, i = .push a ∨ i = .call a) → FaultedInExecute .stackInvariant s.usedCount 2 s t)

/-- Rules R110, R111 and R113: an instruction that continues leaves `used` at most the capacity it found, and the
capacity the reconcile makes of it; after a stop, a fault or an `in` that waits the reconcile does not run. -/
def Obligations.ReconcileRunsOnlyAfterContinue : Prop :=
  ∀ (i : Instr) (s t : State), s.runState = .running → s.pendingIn = none → exec i s = .next t →
    (t.runState = .running ∧ t.pendingIn = none → t.used ≤ s.cap.toNat ∧ t.cap = reconciledCap t.used s.cap) ∧
    (t.runState ≠ .running ∨ t.pendingIn ≠ none → t.cap = s.cap)

/-- Rule R144, in exact numbers: grow at `used = cap`, shrink above 32 and below a quarter, else no change; the
entries are kept. A stack within its physical depth keeps the doubled capacity inside 32 bits (decision D14). -/
def Obligations.ReconcileGrowsAndShrinks : Prop :=
  ∀ (s : State) (p : Count), s.config.wf → s.used ≤ s.config.stackMax → s.used ≤ s.cap.toNat →
    (s.used = s.cap.toNat → (s.postInstruction p).cap.toNat = 2 * s.cap.toNat) ∧
    (s.used ≠ s.cap.toNat → 32 < s.cap.toNat ∧ s.used < s.cap.toNat / 4 →
      (s.postInstruction p).cap.toNat = s.cap.toNat / 2) ∧
    (s.used ≠ s.cap.toNat → ¬ (32 < s.cap.toNat ∧ s.used < s.cap.toNat / 4) →
      (s.postInstruction p).cap = s.cap) ∧
    (s.postInstruction p).stack = s.stack

/-! ### Moves -/

/-- Rule R130: `set` stores the resolved value, masked, and leaves everything else. -/
def Obligations.SetWritesResolvedValue : Prop :=
  ∀ (s : State) (d : Reg) (b : Operand), b.fits .value = true → s.used ≤ s.cap.toNat →
    ∃ t, exec (.set (.reg d) b) s = .next t ∧ WroteReg d ((s.resolve b).toNat % 32768) 3 s t

/-- Rule R131: `rmem` stores the masked cell, or faults on an address of 32768 or more with no register written. (For a
cell of 32768 or more the rule rests on decision D7: log entry 12.) -/
def Obligations.RmemReadsCellOrFaults : Prop :=
  ∀ (s : State) (d : Reg) (b : Operand), b.fits .value = true →
    ((s.resolve b).toNat < 32768 → s.used ≤ s.cap.toNat →
      ∃ t, exec (.rmem (.reg d) b) s = .next t ∧
        WroteReg d ((s.mem.read (s.resolve b).toNat).toNat % 32768) 3 s t) ∧
    (32768 ≤ (s.resolve b).toNat →
      ∃ t, exec (.rmem (.reg d) b) s = .next t ∧
        FaultedInExecute .memoryAddressOutOfBounds ((s.resolve b).setWidth 32) 3 s t)

/-- Rule R132: `wmem` writes the masked value to the cell and leaves every other cell and every register, or faults
on an address of 32768 or more with no cell written. -/
def Obligations.WmemWritesCellOrFaults : Prop :=
  ∀ (s : State) (a b : Operand), a.fits .value = true → b.fits .value = true →
    ((s.resolve a).toNat < 32768 → s.used ≤ s.cap.toNat → s.mem.wf →
      ∃ t, exec (.wmem a b) s = .next t ∧
        (t.mem.read (s.resolve a).toNat).toNat = (s.resolve b).toNat % 32768 ∧
        SameMemBut (s.resolve a).toNat s t ∧ SameRegs s t ∧ t.stack = s.stack ∧ SamePorts s t ∧
        t.pc = s.pc + 3 ∧ Continues s t) ∧
    (32768 ≤ (s.resolve a).toNat →
      ∃ t, exec (.wmem a b) s = .next t ∧
        FaultedInExecute .memoryAddressOutOfBounds ((s.resolve a).setWidth 32) 3 s t)

/-! ### Stack -/

/-- Rules R140 and R142: `push` puts the whole 16-bit value on top; with no free slot it faults STACK_INVARIANT, at
the physical depth STACK_OVERFLOW, the first before the second. -/
def Obligations.PushAddsTopOrFaults : Prop :=
  ∀ (s : State) (a : Operand), a.fits .value = true →
    (s.used < s.cap.toNat → s.used < s.config.stackMax →
      ∃ t, exec (.push a) s = .next t ∧ t.stack = s.stack ++ [s.resolve a] ∧ SameRegs s t ∧ SameMem s t ∧
        SamePorts s t ∧ t.pc = s.pc + 2 ∧ Continues s t) ∧
    (s.cap.toNat ≤ s.used →
      ∃ t, exec (.push a) s = .next t ∧ FaultedInExecute .stackInvariant (BitVec.ofNat 32 s.used) 2 s t) ∧
    (s.used < s.cap.toNat → s.config.stackMax ≤ s.used →
      ∃ t, exec (.push a) s = .next t ∧ FaultedInExecute .stackOverflow (BitVec.ofNat 32 s.used) 2 s t)

/-- Rule R143: `pop` takes the top entry off and stores it masked; an empty stack is the fault STACK_UNDERFLOW. (For an
entry of 32768 or more the rule rests on decision D7: log entry 12.) -/
def Obligations.PopTakesTopOrFaults : Prop :=
  ∀ (s : State) (d : Reg),
    (∀ l v, s.stack = l ++ [v] → l.length ≤ s.cap.toNat →
      ∃ t, exec (.pop (.reg d)) s = .next t ∧ t.stack = l ∧ (t.readReg d).toNat = v.toNat % 32768 ∧
        SameRegsBut d s t ∧ SameMem s t ∧ SamePorts s t ∧ t.pc = s.pc + 2 ∧ Continues s t) ∧
    (s.stack = [] → ∃ t, exec (.pop (.reg d)) s = .next t ∧ FaultedInExecute .stackUnderflow 0 2 s t)

/-- Example E3: a push followed by a pop gives the value back, unchanged when it is at most 32767, and leaves the
stack as it was. -/
def Obligations.PushThenPopGivesValueBack : Prop :=
  ∀ (s t u : State) (a : Operand) (d : Reg), a.fits .value = true → s.used < s.cap.toNat →
    s.used < s.config.stackMax → s.config.wf → exec (.push a) s = .next t → exec (.pop (.reg d)) t = .next u →
    u.stack = s.stack ∧ (u.readReg d).toNat = (s.resolve a).toNat % 32768 ∧ u.runState = s.runState

/-! ### ALU -/

/-- Rules R161 and R162: `eq` and `gt` compare the full unsigned values and write 1 or 0. -/
def Obligations.EqAndGtWriteOneOrZero : Prop :=
  ∀ (s : State) (d : Reg) (b c : Operand), b.fits .value = true → c.fits .value = true →
    s.used ≤ s.cap.toNat →
    (∃ t, exec (.eq (.reg d) b c) s = .next t ∧ WroteReg d (if s.resolve b = s.resolve c then 1 else 0) 4 s t) ∧
    (∃ t, exec (.gt (.reg d) b c) s = .next t ∧
      WroteReg d (if (s.resolve b).toNat > (s.resolve c).toNat then 1 else 0) 4 s t)

/-- Rules R163 and R164: `add` and `mult` write the exact sum and product reduced mod 32768, the sources read before
the destination is written. -/
def Obligations.AddAndMultWrapMod32768 : Prop :=
  ∀ (s : State) (d : Reg) (b c : Operand), b.fits .value = true → c.fits .value = true →
    s.used ≤ s.cap.toNat →
    (∃ t, exec (.add (.reg d) b c) s = .next t ∧
      WroteReg d (((s.resolve b).toNat + (s.resolve c).toNat) % 32768) 4 s t) ∧
    (∃ t, exec (.mult (.reg d) b c) s = .next t ∧
      WroteReg d (((s.resolve b).toNat * (s.resolve c).toNat) % 32768) 4 s t)

/-- Rule R170: arithmetic that keeps only the low 16 bits, or only the low 15, gives the same `add` and `mult` results
as exact arithmetic, for every pair of 16-bit inputs. -/
def Obligations.LowBitArithmeticGivesSameResults : Prop :=
  ∀ x y : Word,
    (x.toNat + y.toNat) % 32768 = (x.toNat + y.toNat) % 65536 % 32768 ∧
    (x.toNat * y.toNat) % 32768 = (x.toNat * y.toNat) % 65536 % 32768 ∧
    mask15 (alu .add x.toNat y.toNat) = mask15 (x + y).toNat ∧
    mask15 (alu .mul x.toNat y.toNat) = mask15 (x * y).toNat ∧
    mask15 (alu .add x.toNat y.toNat) = (x.setWidth 15 + y.setWidth 15).setWidth 16 ∧
    mask15 (alu .mul x.toNat y.toNat) = (x.setWidth 15 * y.setWidth 15).setWidth 16

/-- Rule R165: `mod` writes the unsigned remainder, masked, which for values of the 15-bit domain is below the
divisor; a zero divisor is the fault DIVIDE_BY_ZERO with no register written. -/
def Obligations.ModWritesRemainderOrFaults : Prop :=
  ∀ (s : State) (d : Reg) (b c : Operand), b.fits .value = true → c.fits .value = true →
    (s.resolve c ≠ 0 → s.used ≤ s.cap.toNat →
      ∃ t, exec (.mod (.reg d) b c) s = .next t ∧
        WroteReg d ((s.resolve b).toNat % (s.resolve c).toNat % 32768) 4 s t ∧
        (t.readReg d).toNat < (s.resolve c).toNat) ∧
    (s.resolve c = 0 → ∃ t, exec (.mod (.reg d) b c) s = .next t ∧ FaultedInExecute .divideByZero 0 4 s t)

/-- Rules R166 to R168, bit by bit on bits 0 to 14; bit 15 of the written register is clear. -/
def Obligations.AndOrNotWorkBitwise : Prop :=
  ∀ (s : State) (d : Reg) (b c : Operand), b.fits .value = true → c.fits .value = true →
    s.used ≤ s.cap.toNat →
    (∃ t, exec (.and (.reg d) b c) s = .next t ∧ WroteReg d (t.readReg d).toNat 4 s t ∧
      (∀ k, k < 15 → (t.readReg d).getLsbD k = ((s.resolve b).getLsbD k && (s.resolve c).getLsbD k)) ∧
      (t.readReg d).getLsbD 15 = false) ∧
    (∃ t, exec (.or (.reg d) b c) s = .next t ∧ WroteReg d (t.readReg d).toNat 4 s t ∧
      (∀ k, k < 15 → (t.readReg d).getLsbD k = ((s.resolve b).getLsbD k || (s.resolve c).getLsbD k)) ∧
      (t.readReg d).getLsbD 15 = false) ∧
    (∃ t, exec (.not (.reg d) b) s = .next t ∧ WroteReg d (t.readReg d).toNat 3 s t ∧
      (∀ k, k < 15 → (t.readReg d).getLsbD k = !(s.resolve b).getLsbD k) ∧
      (t.readReg d).getLsbD 15 = false)

/-! ### Control transfer -/

/-- Rule R190: `jmp` sets `pc` to the absolute target. -/
def Obligations.JmpSetsAbsoluteTarget : Prop :=
  ∀ (s : State) (a : Operand), a.fits .value = true → s.used ≤ s.cap.toNat →
    ∃ t, exec (.jmp a) s = .next t ∧ t.pc.toNat = (s.resolve a).toNat ∧ SameRegs s t ∧ SameMem s t ∧
      t.stack = s.stack ∧ SamePorts s t ∧ Continues s t

/-- Rules R191 and R192: `jt` jumps on a nonzero condition, `jf` on zero; not taken, `pc` is just past the
instruction. -/
def Obligations.JtAndJfJumpOnCondition : Prop :=
  ∀ (s : State) (a b : Operand), a.fits .value = true → b.fits .value = true → s.used ≤ s.cap.toNat →
    (∃ t, exec (.jt a b) s = .next t ∧
      t.pc = (if (s.resolve a).toNat ≠ 0 then (s.resolve b).setWidth 32 else s.pc + 3) ∧ SameRegs s t ∧
      SameMem s t ∧ t.stack = s.stack ∧ SamePorts s t ∧ Continues s t) ∧
    (∃ t, exec (.jf a b) s = .next t ∧
      t.pc = (if (s.resolve a).toNat = 0 then (s.resolve b).setWidth 32 else s.pc + 3) ∧ SameRegs s t ∧
      SameMem s t ∧ t.stack = s.stack ∧ SamePorts s t ∧ Continues s t)

/-- Rule R193: `call` pushes the address after its operand, `p + 2`, and jumps; on a fault of the push nothing is
pushed and `pc` stays `p + 2`. In every step `p + 2` is at most 32768 (rule R108). -/
def Obligations.CallPushesReturnAddress : Prop :=
  ∀ (s : State) (a : Operand), a.fits .value = true → s.pc.toNat + 2 ≤ 32768 →
    (s.used < s.cap.toNat → s.used < s.config.stackMax →
      ∃ t, exec (.call a) s = .next t ∧ t.stack = s.stack ++ [BitVec.ofNat 16 (s.pc.toNat + 2)] ∧
        t.pc.toNat = (s.resolve a).toNat ∧ SameRegs s t ∧ SameMem s t ∧ SamePorts s t ∧ Continues s t) ∧
    (s.cap.toNat ≤ s.used →
      ∃ t, exec (.call a) s = .next t ∧ FaultedInExecute .stackInvariant (BitVec.ofNat 32 s.used) 2 s t) ∧
    (s.used < s.cap.toNat → s.config.stackMax ≤ s.used →
      ∃ t, exec (.call a) s = .next t ∧ FaultedInExecute .stackOverflow (BitVec.ofNat 32 s.used) 2 s t)

/-- Rule R194: `ret` pops any 16-bit entry into `pc`; on an empty stack it is a normal termination, RET_EMPTY, with
`pc` at `p + 1`. -/
def Obligations.RetPopsTargetOrHalts : Prop :=
  ∀ s : State,
    (∀ l v, s.stack = l ++ [v] → l.length ≤ s.cap.toNat →
      ∃ t, exec .ret s = .next t ∧ t.stack = l ∧ t.pc.toNat = v.toNat ∧ SameRegs s t ∧ SameMem s t ∧
        SamePorts s t ∧ Continues s t) ∧
    (s.stack = [] → exec .ret s = .next
      { s with pc := s.pc + 1, runState := .halted, haltReason := .retEmpty })

/-- Example E7: a `ret` executed on the stack a `call` left returns to the address just after the call's operand. -/
def Obligations.CallThenRetReturnsPastCall : Prop :=
  ∀ (s t u v : State) (a : Operand), a.fits .value = true → s.pc.toNat + 2 ≤ 32768 →
    s.used < s.cap.toNat → s.used < s.config.stackMax → s.config.wf → exec (.call a) s = .next t →
    u.stack = t.stack → u.cap = t.cap → exec .ret u = .next v →
    v.pc.toNat = s.pc.toNat + 2 ∧ v.stack = s.stack ∧ v.runState = u.runState

/-! ### System and I/O -/

/-- Rule R210: `halt` stops the run with HALT_INSTR, `pc` at `p + 1`, and nothing else changed. -/
def Obligations.HaltStopsRun : Prop :=
  ∀ s : State, exec .halt s = .next
    { s with pc := s.pc + 1, runState := .halted, haltReason := .haltInstr }

/-- Rule R211: `noop` advances `pc`; the reconcile still runs, and grows `cap` where `used = cap`. -/
def Obligations.NoopOnlyAdvances : Prop :=
  ∀ s : State, s.used ≤ s.cap.toNat →
    ∃ t, exec .noop s = .next t ∧ t.pc = s.pc + 1 ∧ SameRegs s t ∧ SameMem s t ∧ t.stack = s.stack ∧
      SamePorts s t ∧ Continues s t

/-- Rule R212: `out` emits the low 8 bits of the value as one byte. (For values above 255 the rule rests on decision
D17: log entry 12.) -/
def Obligations.OutEmitsLowByte : Prop :=
  ∀ (s : State) (a : Operand), a.fits .value = true → s.used ≤ s.cap.toNat →
    ∃ t, exec (.out a) s = .next t ∧ t.output = s.output ++ [(s.resolve a).extractLsb' 0 8] ∧
      t.input = s.input ∧ t.pc = s.pc + 2 ∧ SameRegs s t ∧ SameMem s t ∧ t.stack = s.stack ∧ Continues s t

/-- Rule R213: the issue half of `in` makes its register wait and advances `pc`; nothing else changes, and no
reconcile runs. -/
def Obligations.InIssueWaits : Prop :=
  ∀ (s : State) (d : Reg), exec (.in_ (.reg d)) s = .next { s with pc := s.pc + 2, pendingIn := some d }

/-- Rule R214: the completion half of `in`. A latched request is taken first; else the next offered byte is consumed and
written, zero-extended, to the waiting register, and the post-instruction check runs, with `pc - 2` as the instruction's
address. With no byte and no request there is no step. -/
def Obligations.InCompletionWritesByte : Prop :=
  ∀ (s : State) (d : Reg), s.runState = .running → s.pendingIn = some d →
    (s.ckptReq = true → step s = .next
      { s with ckptReq := false, pendingIn := none, runState := .checkpointed }) ∧
    (s.ckptReq = false → ∀ b rest, s.input = b :: rest →
      ∃ t, step s = .next t ∧ t.readReg d = b.setWidth 16 ∧ t.input = rest ∧ t.pendingIn = none ∧
        SameRegsBut d s t ∧ SameMem s t ∧ t.stack = s.stack ∧ t.output = s.output ∧ t.pc = s.pc ∧
        t.ckptReq = false ∧ t.config = s.config ∧
        (s.used ≤ s.cap.toNat → SameStatus s t ∧ t.cap = reconciledCap s.used s.cap) ∧
        (s.cap.toNat < s.used → t.cap = s.cap ∧ Faulted (s.pc - 2) .stackInvariant s.usedCount s t)) ∧
    (s.ckptReq = false → s.input = [] → ∀ t, step s ≠ .next t)

/-! ### Checkpoint request, faults, status -/

/-- Rules R241 and R242: a latched request is taken at the start of the next step, at an instruction boundary or
while an `in` waits, before anything else, and changes only `ckpt_req`, `pending_in` and `run_state`. -/
def Obligations.LatchedRequestEndsRun : Prop :=
  ∀ s : State, s.runState = .running → s.ckptReq = true →
    step s = .next { s with ckptReq := false, pendingIn := none, runState := .checkpointed }

/-- Rule R239: a request sets the latch while RUNNING, a second one changes nothing, and it is ignored in any other
run state. -/
def Obligations.RequestIsLatchedWhileRunning : Prop :=
  (∀ s : State, s.runState = .running → s.requestCheckpoint = { s with ckptReq := true }) ∧
  (∀ s : State, s.requestCheckpoint.requestCheckpoint = s.requestCheckpoint) ∧
  (∀ s : State, s.runState ≠ .running → s.requestCheckpoint = s)

/-- Rules R231 and R233: an instruction that passed the operand check and ends ERRORED names its own address, and its
cause, condition and value are those of the table. Everything but the fault record and the advanced `pc` is as it was,
unless the fault is the post-instruction STACK_INVARIANT, which `push` and `call` never raise. -/
def Obligations.ExecuteFaultsArePrecise : Prop :=
  ∀ (i : Instr) (s t : State), s.runState = .running → i.wellFormed = true → exec i s = .next t →
    t.runState = .errored →
    t.faultPc = s.pc ∧ t.haltReason = s.haltReason ∧
    ((t.faultCause = .stackUnderflow ∧ t.faultValue = 0 ∧ s.used = 0 ∧ ∃ a, i = .pop a) ∨
     (t.faultCause = .divideByZero ∧ t.faultValue = 0 ∧ ∃ a b c, i = .mod a b c ∧ s.resolve c = 0) ∨
     (t.faultCause = .memoryAddressOutOfBounds ∧ ∃ a b o, (i = .rmem a b ∧ o = b ∨ i = .wmem a b ∧ o = a) ∧
       32768 ≤ (s.resolve o).toNat ∧ t.faultValue = (s.resolve o).setWidth 32) ∨
     (t.faultCause = .stackOverflow ∧ t.faultValue = s.usedCount ∧ s.used < s.cap.toNat ∧
       s.config.stackMax ≤ s.used ∧ ∃ a, i = .push a ∨ i = .call a) ∨
     (t.faultCause = .stackInvariant ∧ t.faultValue = t.usedCount ∧
       (s.cap.toNat < t.used ∨ s.cap.toNat ≤ s.used ∧ ∃ a, i = .push a ∨ i = .call a))) ∧
    (t.faultCause ≠ .stackInvariant ∨ (∃ a, i = .push a ∨ i = .call a) →
      SameData s t ∧ t.pc = s.pc + BitVec.ofNat 32 i.length)

/-- Rules R31, R32, R66 and R231: the numbers the host reads at the status outputs, and that they tell the run states,
the halt reasons and the fault causes apart. -/
def Obligations.StatusOutputsTellOutcomesApart : Prop :=
  (RunState.running.code = 0 ∧ RunState.halted.code = 1 ∧ RunState.errored.code = 2 ∧
    RunState.checkpointed.code = 3) ∧
  (HaltReason.none.code = 0 ∧ HaltReason.haltInstr.code = 1 ∧ HaltReason.pcOutOfRange.code = 2 ∧
    HaltReason.retEmpty.code = 3) ∧
  (FaultCause.none.code = 0 ∧ FaultCause.invalidOpcode.code = 1 ∧ FaultCause.operandFetchOutOfBounds.code = 2 ∧
    FaultCause.invalidOperand.code = 3 ∧ FaultCause.invalidDestination.code = 4 ∧
    FaultCause.stackUnderflow.code = 5 ∧ FaultCause.divideByZero.code = 6 ∧
    FaultCause.memoryAddressOutOfBounds.code = 7 ∧ FaultCause.stackOverflow.code = 8 ∧
    FaultCause.stackInvariant.code = 9) ∧
  (∀ s : State, s.statusOutputs =
    ⟨s.runState.code, s.haltReason.code, s.faultCause.code, s.faultPc, s.faultValue⟩) ∧
  ∀ s t : State, s.statusOutputs = t.statusOutputs ↔ SameStatus s t

/-! ### Load, restore, snapshot and the host's files -/

/-- Rule R270: a program load sets every state of the table. -/
def Obligations.ProgramLoadSetsEveryState : Prop :=
  ∀ (s : State) (ws : List Word), s.runState ≠ .running → ws.length ≤ 32768 →
    ∃ t, s.programLoad ws = some t ∧
      (∀ k (h : k < ws.length), t.mem.read k = ws[k]) ∧ (∀ k, ws.length ≤ k → t.mem.read k = 0) ∧
      (∀ r, t.readReg r = 0) ∧ t.stack = [] ∧ t.cap = 32 ∧ t.pc = 0 ∧ t.runState = .running ∧
      t.haltReason = .none ∧ t.faultCause = .none ∧ t.faultPc = 0 ∧ t.faultValue = 0 ∧
      t.pendingIn = none ∧ t.ckptReq = false

/-- The reset state is a program load of no words (rule R270); its memory and its status meet the invariants, those
of states from a program load included. -/
def Obligations.ResetMeetsInvariants : Prop :=
  State.reset.mem = .ofWords [] ∧ (∀ r, State.reset.readReg r = 0) ∧ State.reset.stack = [] ∧
    State.reset.cap = 32 ∧ State.reset.pc = 0 ∧ State.reset.runState = .running ∧
    State.reset.pendingIn = none ∧ State.reset.ckptReq = false ∧ State.reset.wf ∧ State.reset.loadInv

/-- Rule R271: a restore sets every state of the table from the image, verbatim. -/
def Obligations.RestoreSetsEveryState : Prop :=
  ∀ (s : State) (img : StateImage), s.runState ≠ .running → img.stack.length ≤ s.config.stackMax →
    ∃ t, s.restore img = some t ∧ t.mem = img.mem ∧ t.regs = img.regs ∧ t.used = img.stack.length ∧
      t.cap = img.cap ∧ t.stack = img.stack ∧ t.pc = img.pc ∧ t.runState = .running ∧
      t.haltReason = .none ∧ t.faultCause = .none ∧ t.faultPc = 0 ∧ t.faultValue = 0 ∧
      t.pendingIn = none ∧ t.ckptReq = false

/-- Example E4 and rule R241: a checkpoint taken at an instruction boundary, written to a file, read back and
restored into any stopped core gives the state the run had, so running on is running on from there. (The port queues
are the stopped core's own: a restore leaves them, which is the model's choice, log entry 3.) -/
def Obligations.CheckpointFileResumesRun : Prop :=
  ∀ s t u : State, s.wf → s.runState = .running → s.pendingIn = none →
    step { s with ckptReq := true } = .next t → u.runState ≠ .running → u.config = s.config →
    ∃ img img' v, t.snapshot = some img ∧ imageOfFile (checkpointFile img) = some img' ∧
      u.restore img' = some v ∧ v.image = s.image ∧
      v = { s with ckptReq := false, input := u.input, output := u.output }

/-- Rule R68's sizes: the checkpoint file of an image has 65564 + 2 * used bytes (example E11). -/
def Obligations.CheckpointFileSize : Prop :=
  ∀ img : StateImage, (checkpointFile img).length = 65564 + 2 * img.stack.length

/-- Rule R68: reading a checkpoint file gives back the image it was written from. -/
def Obligations.CheckpointFileRoundTrip : Prop :=
  ∀ img : StateImage, img.mem.wf → img.stack.length < 2 ^ 32 → imageOfFile (checkpointFile img) = some img

/-- Rule R52: a program file is its words, low byte first. -/
def Obligations.ProgramFileIsLittleEndian : Prop :=
  ∀ ws : List Word, ws.length ≤ 32768 →
    programOfFile (ws.flatMap fun w => [w.extractLsb' 0 8, w.extractLsb' 8 8]) = some ws

/-- Rule R273: what the host refuses. A checkpoint file cut off anywhere before its end is refused, so a file is read
only when it holds all the fields it declares. Besides, no port operation is possible while RUNNING (rule R67). -/
def Obligations.HostRefusesBadImages : Prop :=
  (∀ bs : List Byte, bs.length % 2 = 1 → programOfFile bs = none) ∧
  (∀ bs : List Byte, 65536 < bs.length → programOfFile bs = none) ∧
  (∀ (s : State) (ws : List Word), 32768 < ws.length → s.programLoad ws = none) ∧
  (∀ (img : StateImage) (bs cut : List Byte), img.stack.length < 2 ^ 32 → cut ≠ [] →
    checkpointFile img = bs ++ cut → imageOfFile bs = none) ∧
  (∀ (bs : List Byte) (img : StateImage), imageOfFile bs = some img → 65564 + 2 * img.stack.length ≤ bs.length) ∧
  (∀ (s : State) (img : StateImage), s.config.stackMax < img.stack.length → s.restore img = none) ∧
  (∀ s : State, s.runState = .running →
    (∀ ws, s.programLoad ws = none) ∧ (∀ img, s.restore img = none) ∧ s.snapshot = none)

/-! ### Memory -/

/-- Rules R54 and R58: a write stores all 16 bits in its cell and changes no other, and keeps memory in canonical
form. -/
def Obligations.MemoryReadAfterWrite : Prop :=
  ∀ (m : Memory) (a : Nat) (w : Word), m.wf → a < 32768 →
    (m.write a w).wf ∧ (m.write a w).read a = w ∧ ∀ b, b ≠ a → (m.write a w).read b = m.read b

/-- Rule R36: memory is its 32768 cells. Two canonical memories with the same cells are the same data. -/
def Obligations.CanonicalMemoryIsItsCells : Prop :=
  ∀ m m' : Memory, m.wf → m'.wf → (∀ a, a < 32768 → m.read a = m'.read a) → m = m'

/-! ### Invariants -/

/-- Every step keeps the invariant of all states, restored ones among them: canonical memory, a stack within its
physical depth, a status that agrees with the run state (rules R31 to R36, R140). -/
def Obligations.StepKeepsWellFormedState : Prop :=
  ∀ s t : State, s.wf → step s = .next t → t.wf

/-- Every step keeps what holds of states from a program load: 15-bit registers, `pc` and stack entries at most
32768, `cap` a power of two of at least 32 with `used` below it, no STACK_INVARIANT (rules R22, R23, R145, conflict
C4). -/
def Obligations.StepKeepsLoadInvariants : Prop :=
  ∀ s t : State, s.loadInv → step s = .next t → t.loadInv

/-- Rule R145, points 1 and 3, over whole runs: however the core and its host go on from a program load without a
restore, the invariants of a program load hold. -/
def Obligations.RunsFromLoadKeepInvariants : Prop :=
  ∀ (s t : State) (ws : List Word) (es : List Event), s.config.wf → ws.length ≤ 32768 →
    (∀ e ∈ es, e.isRestore = false) → (s.programLoaded ws).applyAll es = some t → t.loadInv

/-- What the host does between steps keeps the invariant of all states (rules R67, R239, R270, R271). -/
def Obligations.HostActsKeepWellFormedState : Prop :=
  ∀ (s t : State) (e : Event), e ≠ .step → e.wf → s.wf → s.apply e = some t → t.wf

/-! ### Whole-machine rules -/

/-- Rules R21 and R22: a step changes a register only as the destination of one of the twelve instructions that have
one, and what it writes is in 0..32767. -/
def Obligations.OnlyDestinationsAreWritten : Prop :=
  (∀ (s t : State) (r : Reg), step s = .next t → t.readReg r ≠ s.readReg r →
    (t.readReg r).toNat < 32768 ∧
    (s.pendingIn = some r ∨
      (s.pendingIn = none ∧ ∃ i rest, decode (s.mem.fetchWords s.pc.toNat) = .ok (i, rest) ∧
        i.operands.head? = some (.dest, .reg r)))) ∧
  (∀ i : Instr, (∃ o, (Role.dest, o) ∈ i.operands) ↔
    i.opcode.toNat ∈ [1, 3, 4, 5, 9, 10, 11, 12, 13, 14, 15, 20])

/-- Rule R25, points 1 and 2: a step leaves `pc`, or advances it past the instruction, or sets it to the target of a
taken control transfer. -/
def Obligations.PcAdvancesOrTransfers : Prop :=
  ∀ s t : State, step s = .next t → t.pc = s.pc ∨
    ∃ i rest, decode (s.mem.fetchWords s.pc.toNat) = .ok (i, rest) ∧
      (t.pc = s.pc + BitVec.ofNat 32 i.length ∨
       (∃ a, i = .jmp a ∧ t.pc = (s.resolve a).setWidth 32) ∨
       (∃ a b, i = .jt a b ∧ s.resolve a ≠ 0 ∧ t.pc = (s.resolve b).setWidth 32) ∨
       (∃ a b, i = .jf a b ∧ s.resolve a = 0 ∧ t.pc = (s.resolve b).setWidth 32) ∨
       (∃ a, i = .call a ∧ t.pc = (s.resolve a).setWidth 32) ∨
       (i = .ret ∧ ∃ v, s.stack.getLast? = some v ∧ t.pc = v.setWidth 32))

/-- Rules R27, R140 and R141: only `push`, `pop`, `call` and `ret` change the stack, at its top. -/
def Obligations.OnlyFourInstructionsUseStack : Prop :=
  ∀ s t : State, step s = .next t → t.stack ≠ s.stack →
    ∃ i rest, decode (s.mem.fetchWords s.pc.toNat) = .ok (i, rest) ∧
      ((∃ a, i = .push a ∧ t.stack = s.stack ++ [s.resolve a]) ∨
       (∃ a, i = .call a ∧ t.stack = s.stack ++ [(s.pc + 2).setWidth 16]) ∨
       ((i = .ret ∨ ∃ a, i = .pop a) ∧ ∃ v, s.stack = t.stack ++ [v]))

/-- Rule R113: what one instruction writes at most. Every instruction answers a next state, on all operands. -/
def Obligations.OneInstructionWritesAtMost : Prop :=
  ∀ (i : Instr) (s : State), ∃ t, exec i s = .next t ∧
    (SameRegs s t ∨ ∃ d, i.operands.head? = some (.dest, .reg d) ∧ SameRegsBut d s t) ∧
    (SameMem s t ∨ ∃ a b, i = .wmem a b ∧ (s.resolve a).toNat < 32768 ∧ SameMemBut (s.resolve a).toNat s t) ∧
    (t.stack = s.stack ∨ (∃ v, t.stack = s.stack ++ [v]) ∨ ∃ v, s.stack = t.stack ++ [v]) ∧
    (t.output = s.output ∨ ∃ a, i = .out a ∧ t.output = s.output ++ [(s.resolve a).setWidth 8]) ∧
    t.input = s.input ∧ t.ckptReq = s.ckptReq ∧ t.config = s.config

/-- Rule R146: where `used` is below both capacities, the step does the same whichever of them the core has, but for
the capacity itself. -/
def Obligations.CapacityHasNoEffectOnValues : Prop :=
  ∀ (s t : State) (c : Count), s.used < s.cap.toNat → s.used < c.toNat → step s = .next t →
    ∃ c', step { s with cap := c } = .next { t with cap := c' }

/-- Rules R64 and R101: until an `in` waits for a byte, what the host has offered makes no difference to a step and
is not consumed. -/
def Obligations.OfferedBytesHaveNoEffectBeforeIn : Prop :=
  ∀ (s t : State) (bytes : List Byte), s.pendingIn = none → step s = .next t →
    step { s with input := bytes } = .next { t with input := bytes }
end

