-- ==== Sys2Proof/Laws/Decode.lean ====
section
/-! SUPPORT. The laws of the operand classes and of the decoder's formats. -/

namespace Sys2Proof

/-- Classifying a word loses nothing of it. -/
theorem Operand.toWord_ofWord (w : Word) : (Operand.ofWord w).toWord = w := by
  have hw := w.isLt
  apply BitVec.eq_of_toNat_eq
  unfold Operand.ofWord
  split
  · simp only [Operand.toWord, BitVec.toNat_setWidth, BitVec.toNat_ofNat]; omega
  · split
    · simp only [Operand.toWord, BitVec.toNat_ofNat, Fin.val_ofNat, regBase_eq]; omega
    · rfl

/-- A word 0..32767 is a literal (rule R83). -/
theorem Operand.ofWord_lit {w : Word} {v : BitVec 15} (h : w.toNat = v.toNat) : Operand.ofWord w = .lit v := by
  have hv := v.isLt
  unfold Operand.ofWord
  rw [if_pos (by omega), h]
  congr 1
  apply BitVec.eq_of_toNat_eq
  simp only [BitVec.toNat_ofNat]; omega

/-- A word 32768..32775 is a register reference (rule R83). -/
theorem Operand.ofWord_reg {w : Word} {i : Reg} (h : w.toNat = 32768 + i.val) : Operand.ofWord w = .reg i := by
  have hi := i.isLt
  unfold Operand.ofWord
  rw [if_neg (by omega), if_pos (by omega)]
  refine congrArg Operand.reg (Fin.ext ?_)
  rw [Fin.val_ofNat, regBase_eq]
  omega

/-- A word 32776..65535 is invalid (rule R83). -/
theorem Operand.ofWord_inv {w : Word} (h : 32776 ≤ w.toNat) : Operand.ofWord w = .inv w := by
  unfold Operand.ofWord
  rw [if_neg (by omega), if_neg (by omega)]

/-- The word of a literal is its number. -/
@[simp] theorem Operand.toWord_lit_toNat (v : BitVec 15) : (Operand.lit v).toWord.toNat = v.toNat := by
  have := v.isLt
  simp only [Operand.toWord, BitVec.toNat_setWidth]; omega

/-- The word of a register reference is 32768 plus the index (rule R83). -/
@[simp] theorem Operand.toWord_reg_toNat (i : Reg) : (Operand.reg i).toWord.toNat = 32768 + i.val := by
  have := i.isLt
  simp only [Operand.toWord, regBase_eq, BitVec.toNat_ofNat]; omega

/-- An operand that fits some role is the class of its own word. -/
theorem Operand.ofWord_toWord {r : Role} {o : Operand} (h : o.fits r = true) : Operand.ofWord o.toWord = o := by
  cases o with
  | lit v => exact Operand.ofWord_lit (Operand.toWord_lit_toNat v)
  | reg i => exact Operand.ofWord_reg (Operand.toWord_reg_toNat i)
  | inv w => cases r <;> simp [Operand.fits] at h

/-- At most three operands (rule R7, `MAX_ARGC`). -/
theorem Instr.operands_length_le (i : Instr) : i.operands.length ≤ 3 := by
  cases i <;> simp [Instr.operands]

/-- The opcode map's operand count is the instruction's (rules R80, R89). -/
theorem argc_opcode (i : Instr) : argc i.opcode = some i.operands.length := by
  cases i <;> rfl

/-- An encoding has the instruction's length (rule R80). -/
theorem encode_length (i : Instr) : (encode i).length = i.length := by
  simp [encode, Instr.length, Nat.add_comm]

end Sys2Proof
end

