-- ==== Sys2Proof/Laws/State.lean ====
section
/-! SUPPORT. One lemma per field per state update of Machine/Ops.lean, so that no proof unfolds a record update. -/

namespace Sys2Proof.Machine

variable (s : State)

/-! ### `writeReg` -/

@[simp] theorem State.writeReg_regs (i : Reg) (v : Nat) : (s.writeReg i v).regs = s.regs.set i (mask15 v) := rfl
@[simp] theorem State.writeReg_pc (i : Reg) (v : Nat) : (s.writeReg i v).pc = s.pc := rfl
@[simp] theorem State.writeReg_stack (i : Reg) (v : Nat) : (s.writeReg i v).stack = s.stack := rfl
@[simp] theorem State.writeReg_cap (i : Reg) (v : Nat) : (s.writeReg i v).cap = s.cap := rfl
@[simp] theorem State.writeReg_runState (i : Reg) (v : Nat) : (s.writeReg i v).runState = s.runState := rfl
@[simp] theorem State.writeReg_haltReason (i : Reg) (v : Nat) : (s.writeReg i v).haltReason = s.haltReason := rfl
@[simp] theorem State.writeReg_faultCause (i : Reg) (v : Nat) : (s.writeReg i v).faultCause = s.faultCause := rfl
@[simp] theorem State.writeReg_faultPc (i : Reg) (v : Nat) : (s.writeReg i v).faultPc = s.faultPc := rfl
@[simp] theorem State.writeReg_faultValue (i : Reg) (v : Nat) : (s.writeReg i v).faultValue = s.faultValue := rfl
@[simp] theorem State.writeReg_pendingIn (i : Reg) (v : Nat) : (s.writeReg i v).pendingIn = s.pendingIn := rfl
@[simp] theorem State.writeReg_ckptReq (i : Reg) (v : Nat) : (s.writeReg i v).ckptReq = s.ckptReq := rfl
@[simp] theorem State.writeReg_mem (i : Reg) (v : Nat) : (s.writeReg i v).mem = s.mem := rfl
@[simp] theorem State.writeReg_input (i : Reg) (v : Nat) : (s.writeReg i v).input = s.input := rfl
@[simp] theorem State.writeReg_output (i : Reg) (v : Nat) : (s.writeReg i v).output = s.output := rfl
@[simp] theorem State.writeReg_config (i : Reg) (v : Nat) : (s.writeReg i v).config = s.config := rfl
@[simp] theorem State.writeReg_used (i : Reg) (v : Nat) : (s.writeReg i v).used = s.used := rfl

/-! ### `advance` -/

@[simp] theorem State.advance_regs (n : Nat) : (s.advance n).regs = s.regs := rfl
@[simp] theorem State.advance_pc (n : Nat) : (s.advance n).pc = s.pc + BitVec.ofNat 32 n := rfl
@[simp] theorem State.advance_stack (n : Nat) : (s.advance n).stack = s.stack := rfl
@[simp] theorem State.advance_cap (n : Nat) : (s.advance n).cap = s.cap := rfl
@[simp] theorem State.advance_runState (n : Nat) : (s.advance n).runState = s.runState := rfl
@[simp] theorem State.advance_haltReason (n : Nat) : (s.advance n).haltReason = s.haltReason := rfl
@[simp] theorem State.advance_faultCause (n : Nat) : (s.advance n).faultCause = s.faultCause := rfl
@[simp] theorem State.advance_faultPc (n : Nat) : (s.advance n).faultPc = s.faultPc := rfl
@[simp] theorem State.advance_faultValue (n : Nat) : (s.advance n).faultValue = s.faultValue := rfl
@[simp] theorem State.advance_pendingIn (n : Nat) : (s.advance n).pendingIn = s.pendingIn := rfl
@[simp] theorem State.advance_ckptReq (n : Nat) : (s.advance n).ckptReq = s.ckptReq := rfl
@[simp] theorem State.advance_mem (n : Nat) : (s.advance n).mem = s.mem := rfl
@[simp] theorem State.advance_input (n : Nat) : (s.advance n).input = s.input := rfl
@[simp] theorem State.advance_output (n : Nat) : (s.advance n).output = s.output := rfl
@[simp] theorem State.advance_config (n : Nat) : (s.advance n).config = s.config := rfl
@[simp] theorem State.advance_readReg (n : Nat) (q : Reg) : (s.advance n).readReg q = s.readReg q := rfl
@[simp] theorem State.advance_resolve (n : Nat) (o : Operand) : (s.advance n).resolve o = s.resolve o := by cases o <;> rfl
@[simp] theorem State.advance_used (n : Nat) : (s.advance n).used = s.used := rfl

/-! ### `jump` -/

@[simp] theorem State.jump_regs (w : Word) : (s.jump w).regs = s.regs := rfl
@[simp] theorem State.jump_pc (w : Word) : (s.jump w).pc = w.setWidth 32 := rfl
@[simp] theorem State.jump_stack (w : Word) : (s.jump w).stack = s.stack := rfl
@[simp] theorem State.jump_cap (w : Word) : (s.jump w).cap = s.cap := rfl
@[simp] theorem State.jump_runState (w : Word) : (s.jump w).runState = s.runState := rfl
@[simp] theorem State.jump_haltReason (w : Word) : (s.jump w).haltReason = s.haltReason := rfl
@[simp] theorem State.jump_faultCause (w : Word) : (s.jump w).faultCause = s.faultCause := rfl
@[simp] theorem State.jump_faultPc (w : Word) : (s.jump w).faultPc = s.faultPc := rfl
@[simp] theorem State.jump_faultValue (w : Word) : (s.jump w).faultValue = s.faultValue := rfl
@[simp] theorem State.jump_pendingIn (w : Word) : (s.jump w).pendingIn = s.pendingIn := rfl
@[simp] theorem State.jump_ckptReq (w : Word) : (s.jump w).ckptReq = s.ckptReq := rfl
@[simp] theorem State.jump_mem (w : Word) : (s.jump w).mem = s.mem := rfl
@[simp] theorem State.jump_input (w : Word) : (s.jump w).input = s.input := rfl
@[simp] theorem State.jump_output (w : Word) : (s.jump w).output = s.output := rfl
@[simp] theorem State.jump_config (w : Word) : (s.jump w).config = s.config := rfl
@[simp] theorem State.jump_readReg (w : Word) (q : Reg) : (s.jump w).readReg q = s.readReg q := rfl
@[simp] theorem State.jump_resolve (w : Word) (o : Operand) : (s.jump w).resolve o = s.resolve o := by cases o <;> rfl
@[simp] theorem State.jump_used (w : Word) : (s.jump w).used = s.used := rfl

/-! ### `writeMem` -/

@[simp] theorem State.writeMem_regs (a v : Nat) : (s.writeMem a v).regs = s.regs := rfl
@[simp] theorem State.writeMem_pc (a v : Nat) : (s.writeMem a v).pc = s.pc := rfl
@[simp] theorem State.writeMem_stack (a v : Nat) : (s.writeMem a v).stack = s.stack := rfl
@[simp] theorem State.writeMem_cap (a v : Nat) : (s.writeMem a v).cap = s.cap := rfl
@[simp] theorem State.writeMem_runState (a v : Nat) : (s.writeMem a v).runState = s.runState := rfl
@[simp] theorem State.writeMem_haltReason (a v : Nat) : (s.writeMem a v).haltReason = s.haltReason := rfl
@[simp] theorem State.writeMem_faultCause (a v : Nat) : (s.writeMem a v).faultCause = s.faultCause := rfl
@[simp] theorem State.writeMem_faultPc (a v : Nat) : (s.writeMem a v).faultPc = s.faultPc := rfl
@[simp] theorem State.writeMem_faultValue (a v : Nat) : (s.writeMem a v).faultValue = s.faultValue := rfl
@[simp] theorem State.writeMem_pendingIn (a v : Nat) : (s.writeMem a v).pendingIn = s.pendingIn := rfl
@[simp] theorem State.writeMem_ckptReq (a v : Nat) : (s.writeMem a v).ckptReq = s.ckptReq := rfl
@[simp] theorem State.writeMem_mem (a v : Nat) : (s.writeMem a v).mem = s.mem.write a (mask15 v) := rfl
@[simp] theorem State.writeMem_input (a v : Nat) : (s.writeMem a v).input = s.input := rfl
@[simp] theorem State.writeMem_output (a v : Nat) : (s.writeMem a v).output = s.output := rfl
@[simp] theorem State.writeMem_config (a v : Nat) : (s.writeMem a v).config = s.config := rfl
@[simp] theorem State.writeMem_readReg (a v : Nat) (q : Reg) : (s.writeMem a v).readReg q = s.readReg q := rfl
@[simp] theorem State.writeMem_resolve (a v : Nat) (o : Operand) : (s.writeMem a v).resolve o = s.resolve o := by cases o <;> rfl
@[simp] theorem State.writeMem_used (a v : Nat) : (s.writeMem a v).used = s.used := rfl

/-! ### `outByte` -/

@[simp] theorem State.outByte_regs (b : Byte) : (s.outByte b).regs = s.regs := rfl
@[simp] theorem State.outByte_pc (b : Byte) : (s.outByte b).pc = s.pc := rfl
@[simp] theorem State.outByte_stack (b : Byte) : (s.outByte b).stack = s.stack := rfl
@[simp] theorem State.outByte_cap (b : Byte) : (s.outByte b).cap = s.cap := rfl
@[simp] theorem State.outByte_runState (b : Byte) : (s.outByte b).runState = s.runState := rfl
@[simp] theorem State.outByte_haltReason (b : Byte) : (s.outByte b).haltReason = s.haltReason := rfl
@[simp] theorem State.outByte_faultCause (b : Byte) : (s.outByte b).faultCause = s.faultCause := rfl
@[simp] theorem State.outByte_faultPc (b : Byte) : (s.outByte b).faultPc = s.faultPc := rfl
@[simp] theorem State.outByte_faultValue (b : Byte) : (s.outByte b).faultValue = s.faultValue := rfl
@[simp] theorem State.outByte_pendingIn (b : Byte) : (s.outByte b).pendingIn = s.pendingIn := rfl
@[simp] theorem State.outByte_ckptReq (b : Byte) : (s.outByte b).ckptReq = s.ckptReq := rfl
@[simp] theorem State.outByte_mem (b : Byte) : (s.outByte b).mem = s.mem := rfl
@[simp] theorem State.outByte_input (b : Byte) : (s.outByte b).input = s.input := rfl
@[simp] theorem State.outByte_output (b : Byte) : (s.outByte b).output = s.output ++ [b] := rfl
@[simp] theorem State.outByte_config (b : Byte) : (s.outByte b).config = s.config := rfl
@[simp] theorem State.outByte_readReg (b : Byte) (q : Reg) : (s.outByte b).readReg q = s.readReg q := rfl
@[simp] theorem State.outByte_resolve (b : Byte) (o : Operand) : (s.outByte b).resolve o = s.resolve o := by cases o <;> rfl
@[simp] theorem State.outByte_used (b : Byte) : (s.outByte b).used = s.used := rfl

/-! ### `raise` -/

@[simp] theorem State.raise_regs (p : Count) (c : FaultCause) (v : Count) : (s.raise p c v).regs = s.regs := rfl
@[simp] theorem State.raise_pc (p : Count) (c : FaultCause) (v : Count) : (s.raise p c v).pc = s.pc := rfl
@[simp] theorem State.raise_stack (p : Count) (c : FaultCause) (v : Count) : (s.raise p c v).stack = s.stack := rfl
@[simp] theorem State.raise_cap (p : Count) (c : FaultCause) (v : Count) : (s.raise p c v).cap = s.cap := rfl
@[simp] theorem State.raise_runState (p : Count) (c : FaultCause) (v : Count) : (s.raise p c v).runState = .errored := rfl
@[simp] theorem State.raise_haltReason (p : Count) (c : FaultCause) (v : Count) : (s.raise p c v).haltReason = s.haltReason := rfl
@[simp] theorem State.raise_faultCause (p : Count) (c : FaultCause) (v : Count) : (s.raise p c v).faultCause = c := rfl
@[simp] theorem State.raise_faultPc (p : Count) (c : FaultCause) (v : Count) : (s.raise p c v).faultPc = p := rfl
@[simp] theorem State.raise_faultValue (p : Count) (c : FaultCause) (v : Count) : (s.raise p c v).faultValue = v := rfl
@[simp] theorem State.raise_pendingIn (p : Count) (c : FaultCause) (v : Count) : (s.raise p c v).pendingIn = s.pendingIn := rfl
@[simp] theorem State.raise_ckptReq (p : Count) (c : FaultCause) (v : Count) : (s.raise p c v).ckptReq = s.ckptReq := rfl
@[simp] theorem State.raise_mem (p : Count) (c : FaultCause) (v : Count) : (s.raise p c v).mem = s.mem := rfl
@[simp] theorem State.raise_input (p : Count) (c : FaultCause) (v : Count) : (s.raise p c v).input = s.input := rfl
@[simp] theorem State.raise_output (p : Count) (c : FaultCause) (v : Count) : (s.raise p c v).output = s.output := rfl
@[simp] theorem State.raise_config (p : Count) (c : FaultCause) (v : Count) : (s.raise p c v).config = s.config := rfl
@[simp] theorem State.raise_readReg (p : Count) (c : FaultCause) (v : Count) (q : Reg) : (s.raise p c v).readReg q = s.readReg q := rfl
@[simp] theorem State.raise_resolve (p : Count) (c : FaultCause) (v : Count) (o : Operand) : (s.raise p c v).resolve o = s.resolve o := by cases o <;> rfl
@[simp] theorem State.raise_used (p : Count) (c : FaultCause) (v : Count) : (s.raise p c v).used = s.used := rfl

/-! ### `stop` -/

@[simp] theorem State.stop_regs (r : HaltReason) : (s.stop r).regs = s.regs := rfl
@[simp] theorem State.stop_pc (r : HaltReason) : (s.stop r).pc = s.pc := rfl
@[simp] theorem State.stop_stack (r : HaltReason) : (s.stop r).stack = s.stack := rfl
@[simp] theorem State.stop_cap (r : HaltReason) : (s.stop r).cap = s.cap := rfl
@[simp] theorem State.stop_runState (r : HaltReason) : (s.stop r).runState = .halted := rfl
@[simp] theorem State.stop_haltReason (r : HaltReason) : (s.stop r).haltReason = r := rfl
@[simp] theorem State.stop_faultCause (r : HaltReason) : (s.stop r).faultCause = s.faultCause := rfl
@[simp] theorem State.stop_faultPc (r : HaltReason) : (s.stop r).faultPc = s.faultPc := rfl
@[simp] theorem State.stop_faultValue (r : HaltReason) : (s.stop r).faultValue = s.faultValue := rfl
@[simp] theorem State.stop_pendingIn (r : HaltReason) : (s.stop r).pendingIn = s.pendingIn := rfl
@[simp] theorem State.stop_ckptReq (r : HaltReason) : (s.stop r).ckptReq = s.ckptReq := rfl
@[simp] theorem State.stop_mem (r : HaltReason) : (s.stop r).mem = s.mem := rfl
@[simp] theorem State.stop_input (r : HaltReason) : (s.stop r).input = s.input := rfl
@[simp] theorem State.stop_output (r : HaltReason) : (s.stop r).output = s.output := rfl
@[simp] theorem State.stop_config (r : HaltReason) : (s.stop r).config = s.config := rfl
@[simp] theorem State.stop_readReg (r : HaltReason) (q : Reg) : (s.stop r).readReg q = s.readReg q := rfl
@[simp] theorem State.stop_resolve (r : HaltReason) (o : Operand) : (s.stop r).resolve o = s.resolve o := by cases o <;> rfl
@[simp] theorem State.stop_used (r : HaltReason) : (s.stop r).used = s.used := rfl

/-! ### `takeCheckpoint` -/

@[simp] theorem State.takeCheckpoint_regs : (s.takeCheckpoint).regs = s.regs := rfl
@[simp] theorem State.takeCheckpoint_pc : (s.takeCheckpoint).pc = s.pc := rfl
@[simp] theorem State.takeCheckpoint_stack : (s.takeCheckpoint).stack = s.stack := rfl
@[simp] theorem State.takeCheckpoint_cap : (s.takeCheckpoint).cap = s.cap := rfl
@[simp] theorem State.takeCheckpoint_runState : (s.takeCheckpoint).runState = .checkpointed := rfl
@[simp] theorem State.takeCheckpoint_haltReason : (s.takeCheckpoint).haltReason = s.haltReason := rfl
@[simp] theorem State.takeCheckpoint_faultCause : (s.takeCheckpoint).faultCause = s.faultCause := rfl
@[simp] theorem State.takeCheckpoint_faultPc : (s.takeCheckpoint).faultPc = s.faultPc := rfl
@[simp] theorem State.takeCheckpoint_faultValue : (s.takeCheckpoint).faultValue = s.faultValue := rfl
@[simp] theorem State.takeCheckpoint_pendingIn : (s.takeCheckpoint).pendingIn = none := rfl
@[simp] theorem State.takeCheckpoint_ckptReq : (s.takeCheckpoint).ckptReq = false := rfl
@[simp] theorem State.takeCheckpoint_mem : (s.takeCheckpoint).mem = s.mem := rfl
@[simp] theorem State.takeCheckpoint_input : (s.takeCheckpoint).input = s.input := rfl
@[simp] theorem State.takeCheckpoint_output : (s.takeCheckpoint).output = s.output := rfl
@[simp] theorem State.takeCheckpoint_config : (s.takeCheckpoint).config = s.config := rfl
@[simp] theorem State.takeCheckpoint_readReg (q : Reg) : (s.takeCheckpoint).readReg q = s.readReg q := rfl
@[simp] theorem State.takeCheckpoint_resolve (o : Operand) : (s.takeCheckpoint).resolve o = s.resolve o := by cases o <;> rfl
@[simp] theorem State.takeCheckpoint_used : (s.takeCheckpoint).used = s.used := rfl

/-! ### `postInstruction`: what it leaves alone -/

@[simp] theorem State.postInstruction_regs (p : Count) : (s.postInstruction p).regs = s.regs := by
  unfold State.postInstruction; split <;> rfl
@[simp] theorem State.postInstruction_pc (p : Count) : (s.postInstruction p).pc = s.pc := by
  unfold State.postInstruction; split <;> rfl
@[simp] theorem State.postInstruction_stack (p : Count) : (s.postInstruction p).stack = s.stack := by
  unfold State.postInstruction; split <;> rfl
@[simp] theorem State.postInstruction_haltReason (p : Count) : (s.postInstruction p).haltReason = s.haltReason := by
  unfold State.postInstruction; split <;> rfl
@[simp] theorem State.postInstruction_pendingIn (p : Count) : (s.postInstruction p).pendingIn = s.pendingIn := by
  unfold State.postInstruction; split <;> rfl
@[simp] theorem State.postInstruction_ckptReq (p : Count) : (s.postInstruction p).ckptReq = s.ckptReq := by
  unfold State.postInstruction; split <;> rfl
@[simp] theorem State.postInstruction_mem (p : Count) : (s.postInstruction p).mem = s.mem := by
  unfold State.postInstruction; split <;> rfl
@[simp] theorem State.postInstruction_input (p : Count) : (s.postInstruction p).input = s.input := by
  unfold State.postInstruction; split <;> rfl
@[simp] theorem State.postInstruction_output (p : Count) : (s.postInstruction p).output = s.output := by
  unfold State.postInstruction; split <;> rfl
@[simp] theorem State.postInstruction_config (p : Count) : (s.postInstruction p).config = s.config := by
  unfold State.postInstruction; split <;> rfl
@[simp] theorem State.postInstruction_readReg (p : Count) (r : Reg) :
    (s.postInstruction p).readReg r = s.readReg r := by
  unfold State.postInstruction; split <;> rfl
@[simp] theorem State.postInstruction_used (p : Count) : (s.postInstruction p).used = s.used := by
  unfold State.postInstruction; split <;> rfl

/-! ### The state with its fields updated directly -/

@[simp] theorem State.readReg_withRegs (v : Vector Word 8) (r : Reg) : ({ s with regs := v }).readReg r = v[r] := rfl
@[simp] theorem State.readReg_withStack (l : List Word) (r : Reg) : ({ s with stack := l }).readReg r = s.readReg r := rfl
@[simp] theorem State.readReg_withInput (l : List Byte) (p : Option Reg) (r : Reg) :
    ({ s with input := l, pendingIn := p }).readReg r = s.readReg r := rfl
@[simp] theorem State.used_withStack (l : List Word) : ({ s with stack := l }).used = l.length := rfl
@[simp] theorem State.readReg_withPendingIn (p : Option Reg) (r : Reg) :
    ({ s with pendingIn := p }).readReg r = s.readReg r := rfl

/-! ### Reading a register after a write -/

/-- The written register holds the masked value (rule R22). -/
@[simp] theorem State.readReg_writeReg_self (i : Reg) (v : Nat) : (s.writeReg i v).readReg i = mask15 v := by
  simp [State.readReg, State.writeReg]

/-- No other register changes (rule R21). -/
theorem State.readReg_writeReg_of_ne {i r : Reg} (v : Nat) (h : r ≠ i) :
    (s.writeReg i v).readReg r = s.readReg r := by
  have : (i : Nat) ≠ (r : Nat) := fun e => h (Fin.ext e.symm)
  simp [State.readReg, State.writeReg, this]

theorem State.readReg_writeReg (i r : Reg) (v : Nat) :
    (s.writeReg i v).readReg r = if r = i then mask15 v else s.readReg r := by
  split
  · rename_i h; subst h; simp
  · rename_i h; exact s.readReg_writeReg_of_ne v h

/-- The mask is `mod 32768` (rule R9). -/
@[simp] theorem mask15_toNat (v : Nat) : (mask15 v).toNat = v % 32768 := by
  simp only [mask15, BitVec.toNat_ofNat]; omega

end Sys2Proof.Machine
end

