-- ==== Sys2Proof/Laws/Memory.lean ====
section
/-! SUPPORT. The laws of memory: read after write, the canonical form, and the blocks of words that loading and
fetching lay out and read. -/

namespace Sys2Proof.Machine

/-! ### Read after write -/

theorem readCells_writeCells_self (a : Nat) (w : Word) (l : List (Nat × Word))
    (hs : l.Pairwise fun c d => c.1 < d.1) : readCells a (writeCells a w l) = w := by
  induction l with
  | nil => simp only [writeCells]; split <;> simp_all [readCells]
  | cons c rest ih =>
    obtain ⟨b, v⟩ := c
    have absent : ∀ l' : List (Nat × Word), (∀ d ∈ l', a < d.1) → readCells a l' = 0 := by
      intro l' h
      induction l' with
      | nil => rfl
      | cons d l' ih' =>
        have : a ≠ d.1 := by have := h d (by simp); omega
        simp only [readCells, this, if_false]
        exact ih' fun e he => h e (by simp [he])
    rw [List.pairwise_cons] at hs
    simp only [writeCells]
    split
    · rename_i hab
      split
      · rename_i hw
        subst hw
        exact absent _ fun d hd => by
          rcases List.mem_cons.1 hd with rfl | hd
          · exact hab
          · exact Nat.lt_trans hab (hs.1 d hd)
      · simp [readCells]
    · split
      · rename_i hab
        subst hab
        split
        · rename_i hw
          subst hw
          exact absent _ fun d hd => hs.1 d hd
        · simp [readCells]
      · rename_i hab
        simp only [readCells, hab, if_false]
        exact ih hs.2

theorem readCells_writeCells_of_ne {a b : Nat} (w : Word) (l : List (Nat × Word)) (h : b ≠ a) :
    readCells b (writeCells a w l) = readCells b l := by
  induction l with
  | nil => simp only [writeCells]; split <;> simp [readCells, h]
  | cons c rest ih =>
    obtain ⟨d, v⟩ := c
    simp only [writeCells]
    split
    · split <;> simp [readCells, h]
    · split
      · rename_i hab
        subst hab
        split <;> simp [readCells, h]
      · simp only [readCells, ih]

/-- A read at the written address gives the written word (rule R58). -/
theorem Memory.read_write_self (m : Memory) (a : Nat) (w : Word) (h : m.wf) : (m.write a w).read a = w :=
  readCells_writeCells_self a w m.cells h.1

/-- A write leaves every other address alone (rule R54). -/
theorem Memory.read_write_of_ne (m : Memory) {a b : Nat} (w : Word) (h : b ≠ a) :
    (m.write a w).read b = m.read b :=
  readCells_writeCells_of_ne w m.cells h

/-! ### The canonical form -/

theorem mem_writeCells {a : Nat} {w : Word} {l : List (Nat × Word)} {c : Nat × Word}
    (h : c ∈ writeCells a w l) : c ∈ l ∨ (c = (a, w) ∧ w ≠ 0) := by
  induction l with
  | nil => simp only [writeCells] at h; split at h <;> simp_all
  | cons d rest ih =>
    obtain ⟨b, v⟩ := d
    simp only [writeCells] at h
    split at h
    · split at h
      · exact .inl h
      · rcases List.mem_cons.1 h with rfl | h
        · exact .inr ⟨rfl, ‹_›⟩
        · exact .inl h
    · split at h
      · split at h
        · exact .inl (List.mem_cons_of_mem _ h)
        · rcases List.mem_cons.1 h with rfl | h
          · exact .inr ⟨rfl, ‹_›⟩
          · exact .inl (List.mem_cons_of_mem _ h)
      · rcases List.mem_cons.1 h with rfl | h
        · exact .inl List.mem_cons_self
        · rcases ih h with h | h
          · exact .inl (List.mem_cons_of_mem _ h)
          · exact .inr h

theorem writeCells_sorted (a : Nat) (w : Word) (l : List (Nat × Word))
    (hs : l.Pairwise fun c d => c.1 < d.1) : (writeCells a w l).Pairwise fun c d => c.1 < d.1 := by
  induction l with
  | nil => simp only [writeCells]; split <;> simp
  | cons c rest ih =>
    obtain ⟨b, v⟩ := c
    have hs' := hs
    rw [List.pairwise_cons] at hs
    simp only [writeCells]
    split
    · rename_i hab
      split
      · exact hs'
      · refine List.pairwise_cons.2 ⟨fun d hd => ?_, hs'⟩
        rcases List.mem_cons.1 hd with rfl | hd
        · exact hab
        · exact Nat.lt_trans hab (hs.1 d hd)
    · split
      · rename_i hab
        subst hab
        split
        · exact hs.2
        · exact List.pairwise_cons.2 ⟨hs.1, hs.2⟩
      · rename_i h1 h2
        refine List.pairwise_cons.2 ⟨fun d hd => ?_, ih hs.2⟩
        rcases mem_writeCells hd with hd | ⟨rfl, -⟩
        · exact hs.1 d hd
        · exact Nat.lt_of_le_of_ne (Nat.not_lt.1 h1) (Ne.symm h2)

/-- A write to a cell of the machine keeps the canonical form. -/
theorem Memory.write_wf (m : Memory) {a : Nat} (w : Word) (h : m.wf) (ha : a < memWords) : (m.write a w).wf := by
  refine ⟨writeCells_sorted a w m.cells h.1, fun c hc => ?_⟩
  rcases mem_writeCells hc with hc | ⟨rfl, hw⟩
  · exact h.2 c hc
  · exact ⟨ha, hw⟩

/-! ### Blocks of words -/

theorem mem_cellsOfWords {a : Nat} {ws : List Word} {c : Nat × Word} (h : c ∈ cellsOfWords a ws) :
    a ≤ c.1 ∧ c.1 < a + ws.length ∧ c.2 ≠ 0 := by
  induction ws generalizing a with
  | nil => simp [cellsOfWords] at h
  | cons w ws ih =>
    simp only [cellsOfWords] at h
    simp only [List.length_cons]
    split at h
    · have := ih h
      exact ⟨by omega, by omega, this.2.2⟩
    · rcases List.mem_cons.1 h with rfl | h
      · exact ⟨Nat.le_refl _, by simp, ‹_›⟩
      · have := ih h
        exact ⟨by omega, by omega, this.2.2⟩

theorem cellsOfWords_sorted (a : Nat) (ws : List Word) :
    (cellsOfWords a ws).Pairwise fun c d => c.1 < d.1 := by
  induction ws generalizing a with
  | nil => simp [cellsOfWords]
  | cons w ws ih =>
    simp only [cellsOfWords]
    split
    · exact ih _
    · refine List.pairwise_cons.2 ⟨fun d hd => ?_, ih _⟩
      have := (mem_cellsOfWords hd).1
      show a < d.1
      omega

/-- A block of at most 32768 words is a memory in canonical form. -/
theorem Memory.ofWords_wf (ws : List Word) (h : ws.length ≤ memWords) : (Memory.ofWords ws).wf := by
  refine ⟨cellsOfWords_sorted 0 ws, fun c hc => ?_⟩
  have := mem_cellsOfWords hc
  simp only [memWords_eq] at h ⊢
  exact ⟨by omega, this.2.2⟩

theorem readCells_eq_zero {a : Nat} {l : List (Nat × Word)} (h : ∀ c ∈ l, c.1 ≠ a) : readCells a l = 0 := by
  induction l with
  | nil => rfl
  | cons c l ih =>
    have : a ≠ c.1 := fun e => h c (by simp) e.symm
    simp only [readCells, this, if_false]
    exact ih fun d hd => h d (by simp [hd])

theorem readCells_cellsOfWords (a : Nat) (ws : List Word) (k : Nat) :
    readCells (a + k) (cellsOfWords a ws) = ws.getD k 0 := by
  induction ws generalizing a k with
  | nil => simp [cellsOfWords, readCells]
  | cons w ws ih =>
    cases k with
    | zero =>
      simp only [cellsOfWords]
      split
      · rename_i hw
        rw [readCells_eq_zero]
        · simp [hw]
        · intro c hc
          have := mem_cellsOfWords hc
          omega
      · simp [readCells]
    | succ k =>
      have e : a + (k + 1) = a + 1 + k := by omega
      simp only [cellsOfWords]
      split
      · rw [e, ih]; simp
      · have : a + (k + 1) ≠ a := by omega
        simp only [readCells, this, if_false]
        rw [e, ih]; simp

/-- A loaded memory holds the image, and 0 elsewhere (rule R270). -/
theorem Memory.read_ofWords (ws : List Word) (k : Nat) : (Memory.ofWords ws).read k = ws.getD k 0 := by
  have := readCells_cellsOfWords 0 ws k
  simpa [Memory.read, Memory.ofWords] using this

/-! ### Fetching words -/

/-- The operand words an instruction latches where memory holds them all (rule R106). -/
theorem Memory.readWords_eq (m : Memory) (a n : Nat) (h : a + n ≤ memWords) :
    m.readWords a n = (List.range n).map fun k => m.read (a + k) := by
  induction n generalizing a with
  | zero => rfl
  | succ n ih =>
    have ha : a < memWords := by omega
    rw [Memory.readWords, if_pos ha, ih (a + 1) (by omega), List.range_succ_eq_map]
    simp only [List.map_cons, List.map_map, Nat.add_zero, List.cons.injEq, true_and]
    apply List.map_congr_left
    intro k _
    simp only [Function.comp, Nat.succ_eq_add_one]
    congr 1
    omega

/-- How many words are read: as many as asked for, or up to the end of memory (rule R106). -/
theorem Memory.readWords_length (m : Memory) (a n : Nat) : (m.readWords a n).length = min n (memWords - a) := by
  induction n generalizing a with
  | zero => simp [Memory.readWords]
  | succ n ih =>
    simp only [Memory.readWords]
    split
    · simp only [List.length_cons, ih]; omega
    · simp only [List.length_nil]; omega

end Sys2Proof.Machine
end

