-- ==== Sys2Proof/Laws/Ops.lean ====
section
/-! SUPPORT. One lemma for each shared operation that says everything it can do, and the normal form of each
instruction's meaning once its operands have passed the check. -/

namespace Sys2Proof.Machine

variable (s : State)

/-! ### Stack, post-instruction check, execute -/

/-- `StackPush` in its three cases (rule R140). -/
theorem State.stackPush_cases (v : Word) :
    (s.cap.toNat ≤ s.used ∧ s.stackPush v = .error (.stackInvariant, s.usedCount)) ∨
    (s.used < s.cap.toNat ∧ s.config.stackMax ≤ s.used ∧ s.stackPush v = .error (.stackOverflow, s.usedCount)) ∨
    (s.used < s.cap.toNat ∧ s.used < s.config.stackMax ∧
      s.stackPush v = .ok { s with stack := s.stack ++ [v] }) := by
  unfold State.stackPush
  split
  · exact .inl ⟨‹_›, rfl⟩
  · split
    · exact .inr (.inl ⟨by omega, ‹_›, rfl⟩)
    · exact .inr (.inr ⟨by omega, by omega, rfl⟩)

/-- `StackPush` where there is room (rule R140). -/
theorem State.stackPush_ok {v : Word} (h : s.used < s.cap.toNat) (h' : s.used < s.config.stackMax) :
    s.stackPush v = .ok { s with stack := s.stack ++ [v] } := by
  unfold State.stackPush
  rw [if_neg (by omega), if_neg (by omega)]

/-- `StackPop` in its two cases (rule R141). -/
theorem State.stackPop_cases :
    (s.stack = [] ∧ s.stackPop = none) ∨
    (∃ l v, s.stack = l ++ [v] ∧ s.stackPop = some (v, { s with stack := l })) := by
  rcases List.eq_nil_or_concat s.stack with h | ⟨l, v, h⟩
  · exact .inl ⟨h, by simp [State.stackPop, h]⟩
  · exact .inr ⟨l, v, by simpa using h, by simp [State.stackPop, h]⟩

/-- The post-instruction check in its two cases (rule R111). -/
theorem State.postInstruction_cases (p : Count) :
    (s.cap.toNat < s.used ∧ s.postInstruction p = s.raise p .stackInvariant s.usedCount) ∨
    (s.used ≤ s.cap.toNat ∧ s.postInstruction p = { s with cap := reconciledCap s.used s.cap }) := by
  unfold State.postInstruction
  split
  · exact .inl ⟨‹_›, rfl⟩
  · exact .inr ⟨by omega, rfl⟩

/-- The post-instruction check where it passes (rule R111). -/
theorem State.postInstruction_of_le {p : Count} (h : s.used ≤ s.cap.toNat) :
    s.postInstruction p = { s with cap := reconciledCap s.used s.cap } := by
  unfold State.postInstruction
  rw [if_neg (by omega)]

/-- The post-instruction check where it fails (rule R111). -/
theorem State.postInstruction_of_lt {p : Count} (h : s.cap.toNat < s.used) :
    s.postInstruction p = s.raise p .stackInvariant s.usedCount := by
  unfold State.postInstruction
  rw [if_pos h]

/-- The execute phase, by the signal the instruction rule returns (rules R102, R110). -/
theorem State.execute_eq (n : Nat) (body : State → State × Signal) :
    s.execute n body = (body (s.advance n)).1.signal s.pc (body (s.advance n)).2 := rfl

@[simp] theorem State.signal_cont (p : Count) : s.signal p .cont = s.postInstruction p := rfl
@[simp] theorem State.signal_stop (p : Count) (r : HaltReason) : s.signal p (.stop r) = s.stop r := rfl
@[simp] theorem State.signal_fault (p : Count) (c : FaultCause) (v : Count) :
    s.signal p (.fault c v) = s.raise p c v := rfl
@[simp] theorem State.signal_waitInput (p : Count) (i : Reg) :
    s.signal p (.waitInput i) = { s with pendingIn := some i } := rfl

/-! ### The operand check -/

/-- A V operand that fits is resolved (rule R85). -/
theorem State.withValue_of_fits {o : Operand} (h : o.fits .value = true) (k : Word → State) :
    s.withValue o k = k (s.resolve o) := by
  cases o with
  | lit v => rfl
  | reg i => rfl
  | inv w => simp [Operand.fits] at h

/-- A D operand that fits is a register reference (rule R86). -/
@[simp] theorem State.withDest_reg (i : Reg) (k : Reg → State) : s.withDest (.reg i) k = k i := rfl

/-- An operand that fits a destination is a register reference (rule R84). -/
theorem Operand.eq_reg_of_fits {o : Operand} (h : o.fits .dest = true) : ∃ i, o = .reg i := by
  cases o with
  | lit v => simp [Operand.fits] at h
  | reg i => exact ⟨i, rfl⟩
  | inv w => simp [Operand.fits] at h

end Sys2Proof.Machine
end

