-- ==== Sys2Proof/Laws/Exec.lean ====
section
/-! SUPPORT. What each instruction does once its operands have passed the check, what it does when they have not, and
what fetching and stepping can do. Later proofs cite these and unfold no meaning. -/

namespace Sys2Proof.Machine

variable (s : State)

/-! ### Operands that do not pass -/

/-- An instruction whose operands do not all pass the check raises one of the two operand faults and does nothing
else (rules R103, R107). -/
theorem exec_illFormed {i : Instr} (h : i.wellFormed = false) :
    ∃ c v, (c = .invalidOperand ∨ c = .invalidDestination) ∧ exec i s = .next (s.raise s.pc c v) := by
  cases i with
  | halt | ret | noop => simp [Instr.wellFormed, Instr.operands] at h
  | push a | jmp a | call a | out a | pop a | in_ a =>
    cases a <;> first
      | exact ⟨_, _, .inl rfl, rfl⟩
      | exact ⟨_, _, .inr rfl, rfl⟩
      | simp [Instr.wellFormed, Instr.operands, Operand.fits] at h
  | set a b | jt a b | jf a b | not a b | rmem a b | wmem a b =>
    cases a <;> cases b <;> first
      | exact ⟨_, _, .inl rfl, rfl⟩
      | exact ⟨_, _, .inr rfl, rfl⟩
      | simp [Instr.wellFormed, Instr.operands, Operand.fits] at h
  | eq a b c | gt a b c | add a b c | mult a b c | mod a b c | and a b c | or a b c =>
    cases a <;> cases b <;> cases c <;> first
      | exact ⟨_, _, .inl rfl, rfl⟩
      | exact ⟨_, _, .inr rfl, rfl⟩
      | simp [Instr.wellFormed, Instr.operands, Operand.fits] at h

/-! ### Operands that pass: the normal form of each meaning -/

variable {s} {a b c : Operand} {d : Reg}

theorem exec_halt : exec .halt s = .next ((s.advance 1).stop .haltInstr) := rfl

theorem exec_noop : exec .noop s = .next ((s.advance 1).postInstruction s.pc) := rfl

theorem exec_set (hb : b.fits .value = true) : exec (.set (.reg d) b) s =
    .next (((s.advance 3).writeReg d (s.resolve b).toNat).postInstruction s.pc) := by
  simp [exec, execSet, s.withValue_of_fits hb, State.execute_eq]

theorem exec_not (hb : b.fits .value = true) : exec (.not (.reg d) b) s =
    .next (((s.advance 3).writeReg d (alu .not (s.resolve b).toNat 0)).postInstruction s.pc) := by
  simp [exec, execNot, s.withValue_of_fits hb, State.execute_eq]

theorem aluBinary_eq (f : AluFn) (hb : b.fits .value = true) (hc : c.fits .value = true) :
    s.aluBinary f (.reg d) b c = ((s.advance 4).writeReg d
      (alu f (s.resolve b).toNat (s.resolve c).toNat)).postInstruction s.pc := by
  simp [State.aluBinary, s.withValue_of_fits hb, s.withValue_of_fits hc, State.execute_eq]

theorem exec_eq (hb : b.fits .value = true) (hc : c.fits .value = true) : exec (.eq (.reg d) b c) s =
    .next (((s.advance 4).writeReg d (alu .eq (s.resolve b).toNat (s.resolve c).toNat)).postInstruction s.pc) :=
  congrArg _ (aluBinary_eq .eq hb hc)

theorem exec_gt (hb : b.fits .value = true) (hc : c.fits .value = true) : exec (.gt (.reg d) b c) s =
    .next (((s.advance 4).writeReg d (alu .gt (s.resolve b).toNat (s.resolve c).toNat)).postInstruction s.pc) :=
  congrArg _ (aluBinary_eq .gt hb hc)

theorem exec_add (hb : b.fits .value = true) (hc : c.fits .value = true) : exec (.add (.reg d) b c) s =
    .next (((s.advance 4).writeReg d (alu .add (s.resolve b).toNat (s.resolve c).toNat)).postInstruction s.pc) :=
  congrArg _ (aluBinary_eq .add hb hc)

theorem exec_mult (hb : b.fits .value = true) (hc : c.fits .value = true) : exec (.mult (.reg d) b c) s =
    .next (((s.advance 4).writeReg d (alu .mul (s.resolve b).toNat (s.resolve c).toNat)).postInstruction s.pc) :=
  congrArg _ (aluBinary_eq .mul hb hc)

theorem exec_and (hb : b.fits .value = true) (hc : c.fits .value = true) : exec (.and (.reg d) b c) s =
    .next (((s.advance 4).writeReg d (alu .and (s.resolve b).toNat (s.resolve c).toNat)).postInstruction s.pc) :=
  congrArg _ (aluBinary_eq .and hb hc)

theorem exec_or (hb : b.fits .value = true) (hc : c.fits .value = true) : exec (.or (.reg d) b c) s =
    .next (((s.advance 4).writeReg d (alu .or (s.resolve b).toNat (s.resolve c).toNat)).postInstruction s.pc) :=
  congrArg _ (aluBinary_eq .or hb hc)

theorem exec_mod (hb : b.fits .value = true) (hc : c.fits .value = true) : exec (.mod (.reg d) b c) s = .next
    (if s.resolve c = 0 then (s.advance 4).raise s.pc .divideByZero 0
     else ((s.advance 4).writeReg d (alu .mod (s.resolve b).toNat (s.resolve c).toNat)).postInstruction s.pc) := by
  simp only [exec, execMod, State.withDest_reg, s.withValue_of_fits hb, s.withValue_of_fits hc, State.execute_eq]
  split <;> rfl

theorem exec_rmem (hb : b.fits .value = true) : exec (.rmem (.reg d) b) s = .next
    (if 32768 ≤ (s.resolve b).toNat then
      (s.advance 3).raise s.pc .memoryAddressOutOfBounds ((s.resolve b).setWidth 32)
     else ((s.advance 3).writeReg d (s.mem.read (s.resolve b).toNat).toNat).postInstruction s.pc) := by
  by_cases h : 32768 ≤ (s.resolve b).toNat <;>
    simp [exec, execRmem, s.withValue_of_fits hb, State.execute_eq, h]

theorem exec_wmem (ha : a.fits .value = true) (hb : b.fits .value = true) : exec (.wmem a b) s = .next
    (if 32768 ≤ (s.resolve a).toNat then
      (s.advance 3).raise s.pc .memoryAddressOutOfBounds ((s.resolve a).setWidth 32)
     else ((s.advance 3).writeMem (s.resolve a).toNat (s.resolve b).toNat).postInstruction s.pc) := by
  by_cases h : 32768 ≤ (s.resolve a).toNat <;>
    simp [exec, execWmem, s.withValue_of_fits ha, s.withValue_of_fits hb, State.execute_eq, h]

theorem exec_jmp (ha : a.fits .value = true) : exec (.jmp a) s =
    .next (((s.advance 2).jump (s.resolve a)).postInstruction s.pc) := by
  simp [exec, execJmp, s.withValue_of_fits ha, State.execute_eq]

theorem exec_jt (ha : a.fits .value = true) (hb : b.fits .value = true) : exec (.jt a b) s =
    .next ((if s.resolve a ≠ 0 then (s.advance 3).jump (s.resolve b) else s.advance 3).postInstruction s.pc) := by
  simp [exec, execJt, s.withValue_of_fits ha, s.withValue_of_fits hb, State.execute_eq]

theorem exec_jf (ha : a.fits .value = true) (hb : b.fits .value = true) : exec (.jf a b) s =
    .next ((if s.resolve a = 0 then (s.advance 3).jump (s.resolve b) else s.advance 3).postInstruction s.pc) := by
  simp [exec, execJf, s.withValue_of_fits ha, s.withValue_of_fits hb, State.execute_eq]

theorem exec_out (ha : a.fits .value = true) : exec (.out a) s =
    .next (((s.advance 2).outByte ((s.resolve a).setWidth 8)).postInstruction s.pc) := by
  simp [exec, execOut, s.withValue_of_fits ha, State.execute_eq]

theorem exec_in : exec (.in_ (.reg d)) s = .next { s.advance 2 with pendingIn := some d } := rfl

/-- What `push` and `call` do with the value they push and the state the push is followed by. -/
theorem execute_push (v : Word) (k : State → State) :
    (s.execute 2 fun t => match t.stackPush v with
      | .ok u => (k u, .cont)
      | .error (c, n) => (t, .fault c n)) =
    if s.cap.toNat ≤ s.used then (s.advance 2).raise s.pc .stackInvariant s.usedCount
    else if s.config.stackMax ≤ s.used then (s.advance 2).raise s.pc .stackOverflow s.usedCount
    else (k { s.advance 2 with stack := s.stack ++ [v] }).postInstruction s.pc := by
  rw [State.execute_eq]
  rcases (s.advance 2).stackPush_cases v with ⟨h1, h⟩ | ⟨h1, h2, h⟩ | ⟨h1, h2, h⟩ <;>
    simp only [State.advance_cap, State.advance_used] at h1
  · rw [h, if_pos h1]; rfl
  · simp only [State.advance_config, State.advance_used] at h2
    rw [h, if_neg (by omega), if_pos h2]; rfl
  · simp only [State.advance_config, State.advance_used] at h2
    rw [h, if_neg (by omega), if_neg (by omega)]; rfl

theorem exec_push (ha : a.fits .value = true) : exec (.push a) s = .next
    (if s.cap.toNat ≤ s.used then (s.advance 2).raise s.pc .stackInvariant s.usedCount
     else if s.config.stackMax ≤ s.used then (s.advance 2).raise s.pc .stackOverflow s.usedCount
     else { s.advance 2 with stack := s.stack ++ [s.resolve a] }.postInstruction s.pc) := by
  simp only [exec, execPush, s.withValue_of_fits ha]
  exact congrArg _ (execute_push (s.resolve a) id)

theorem exec_call (ha : a.fits .value = true) : exec (.call a) s = .next
    (if s.cap.toNat ≤ s.used then (s.advance 2).raise s.pc .stackInvariant s.usedCount
     else if s.config.stackMax ≤ s.used then (s.advance 2).raise s.pc .stackOverflow s.usedCount
     else ({ s.advance 2 with stack := s.stack ++ [(s.pc + 2).setWidth 16] }.jump (s.resolve a)).postInstruction
       s.pc) := by
  simp only [exec, execCall, s.withValue_of_fits ha]
  exact congrArg _ (execute_push ((s.pc + 2).setWidth 16) fun u => u.jump (s.resolve a))

theorem exec_pop_nil (h : s.stack = []) :
    exec (.pop (.reg d)) s = .next ((s.advance 2).raise s.pc .stackUnderflow 0) := by
  simp [exec, execPop, State.execute_eq, State.stackPop, h]

theorem exec_pop_concat {l : List Word} {v : Word} (h : s.stack = l ++ [v]) : exec (.pop (.reg d)) s =
    .next (({ s.advance 2 with stack := l }.writeReg d v.toNat).postInstruction s.pc) := by
  simp [exec, execPop, State.execute_eq, State.stackPop, h]

theorem exec_ret_nil (h : s.stack = []) : exec .ret s = .next ((s.advance 1).stop .retEmpty) := by
  simp [exec, execRet, State.execute_eq, State.stackPop, h]

theorem exec_ret_concat {l : List Word} {v : Word} (h : s.stack = l ++ [v]) :
    exec .ret s = .next (({ s.advance 1 with stack := l }.jump v).postInstruction s.pc) := by
  simp [exec, execRet, State.execute_eq, State.stackPop, h]

/-! ### Well-formed instructions, constructor by constructor -/

theorem fits_of_wf1 {r : Role} {i : Instr} (hi : i.operands = [(r, a)]) (h : i.wellFormed = true) :
    a.fits r = true := by
  simpa [Instr.wellFormed, hi] using h

theorem fits_of_wf2 {r q : Role} {i : Instr} (hi : i.operands = [(r, a), (q, b)]) (h : i.wellFormed = true) :
    a.fits r = true ∧ b.fits q = true := by
  simpa [Instr.wellFormed, hi] using h

theorem fits_of_wf3 {r q p : Role} {i : Instr} (hi : i.operands = [(r, a), (q, b), (p, c)])
    (h : i.wellFormed = true) : a.fits r = true ∧ b.fits q = true ∧ c.fits p = true := by
  simpa [Instr.wellFormed, hi] using h

/-! ### Stepping -/

/-- What fetching can give, in the order of rule R234. -/
theorem State.fetch_cases (s : State) :
    (s.ckptReq = true ∧ s.fetch = .error s.takeCheckpoint) ∨
    (s.ckptReq = false ∧ 32768 ≤ s.pc.toNat ∧ s.fetch = .error (s.stop .pcOutOfRange)) ∨
    (s.ckptReq = false ∧ s.pc.toNat < 32768 ∧
      ((∃ i rest, decode (s.mem.fetchWords s.pc.toNat) = .ok (i, rest) ∧ s.fetch = .ok i) ∨
       ∃ e, decode (s.mem.fetchWords s.pc.toNat) = .error e ∧
         s.fetch = .error (s.raise s.pc (decodeFault s.pc e).1 (decodeFault s.pc e).2))) := by
  unfold State.fetch
  cases hc : s.ckptReq with
  | true => exact .inl ⟨rfl, rfl⟩
  | false =>
    refine .inr ?_
    by_cases hp : 32768 ≤ s.pc.toNat
    · exact .inl ⟨rfl, hp, by simp [hp]⟩
    · refine .inr ⟨rfl, by omega, ?_⟩
      cases hd : decode (s.mem.fetchWords s.pc.toNat) with
      | ok p => exact .inl ⟨p.1, p.2, rfl, by simp [hp]⟩
      | error e => exact .inr ⟨e, rfl, by simp [hp]⟩

/-- What a step that answers a next state did: the four ways an instruction step can go, and the two an
input-completion step can (rules R101, R102, R214). -/
theorem step_cases {s t : State} (h : step s = .next t) : s.runState = .running ∧
    ((s.ckptReq = true ∧ t = s.takeCheckpoint) ∨
     (s.ckptReq = false ∧ s.pendingIn = none ∧ 32768 ≤ s.pc.toNat ∧ t = s.stop .pcOutOfRange) ∨
     (s.ckptReq = false ∧ s.pendingIn = none ∧ s.pc.toNat < 32768 ∧
       ∃ e, decode (s.mem.fetchWords s.pc.toNat) = .error e ∧
         t = s.raise s.pc (decodeFault s.pc e).1 (decodeFault s.pc e).2) ∨
     (s.ckptReq = false ∧ s.pendingIn = none ∧ s.pc.toNat < 32768 ∧
       ∃ i rest, decode (s.mem.fetchWords s.pc.toNat) = .ok (i, rest) ∧ exec i s = .next t) ∨
     (s.ckptReq = false ∧ ∃ i b rest, s.pendingIn = some i ∧ s.input = b :: rest ∧
       t = ({ s with input := rest, pendingIn := none }.writeReg i b.toNat).postInstruction (s.pc - 2))) := by
  have hr : s.runState = .running := by
    unfold step at h
    cases hr : s.runState <;> simp [hr] at h ⊢
  refine ⟨hr, ?_⟩
  rcases Option.eq_none_or_eq_some s.pendingIn with hp | ⟨i, hp⟩
  · simp only [step, hr, hp, instructionStep] at h
    rcases s.fetch_cases with ⟨hc, hf⟩ | ⟨hc, hpc, hf⟩ | ⟨hc, hpc, ⟨i, rest, hd, hf⟩ | ⟨e, hd, hf⟩⟩ <;>
      simp only [hf, Host.Outcome.next.injEq] at h
    · exact .inl ⟨hc, h.symm⟩
    · exact .inr (.inl ⟨hc, hp, hpc, h.symm⟩)
    · exact .inr (.inr (.inr (.inl ⟨hc, hp, hpc, i, rest, hd, h⟩)))
    · exact .inr (.inr (.inl ⟨hc, hp, hpc, e, hd, h.symm⟩))
  · simp only [step, hr, hp, inputCompletion] at h
    rcases Bool.eq_false_or_eq_true s.ckptReq with hc | hc
    · simp only [hc, if_true, Host.Outcome.next.injEq] at h
      exact .inl ⟨hc, h.symm⟩
    · rw [hc] at h
      simp only [Bool.false_eq_true, if_false] at h
      rcases hin : s.input with _ | ⟨b, rest⟩ <;> simp only [hin, reduceCtorEq] at h
      refine .inr (.inr (.inr (.inr ⟨hc, i, b, rest, hp, rfl, ?_⟩)))
      rw [hr, hc]
      exact (Host.Outcome.next.inj h).symm

/-- The instruction step where the words at `pc` decode (rule R102). -/
theorem step_of_decode {s : State} {i : Instr} {rest : List Word} (hr : s.runState = .running)
    (hp : s.pendingIn = none) (hc : s.ckptReq = false) (hpc : s.pc.toNat < 32768)
    (hd : decode (s.mem.fetchWords s.pc.toNat) = .ok (i, rest)) : step s = exec i s := by
  have hpc' : ¬ 32768 ≤ s.pc.toNat := by omega
  simp [step, hr, hp, instructionStep, State.fetch, hc, hpc', hd]

end Sys2Proof.Machine
end

