-- ==== Sys2Proof/Laws/Effects.lean ====
section
/-! SUPPORT. The inversion lemma of `exec`: every effect an instruction can have, one constructor for each kind, so
that a rule about all instructions is a case analysis over a dozen kinds. -/

namespace Sys2Proof.Machine

/-- `Effect s i t`: at `s`, instruction `i` has the effect that leaves `t`. -/
inductive Effect (s : State) : Instr → State → Prop where
  /-- An operand did not pass the check (rule R107). -/
  | illFormed (i : Instr) (c : FaultCause) (v : Count) : i.wellFormed = false →
      c = .invalidOperand ∨ c = .invalidDestination → Effect s i (s.raise s.pc c v)
  /-- A destination register was written: set, rmem and the ALU instructions. -/
  | wroteReg (i : Instr) (d : Reg) (n : Nat) : i.wellFormed = true → i.operands.head? = some (.dest, .reg d) →
      (∀ a, i ≠ .pop a) → (∀ a, i ≠ .in_ a) →
      Effect s i (((s.advance i.length).writeReg d n).postInstruction s.pc)
  /-- A memory cell was written (rule R132). -/
  | wroteMem (a b : Operand) : (Instr.wmem a b).wellFormed = true → (s.resolve a).toNat < 32768 →
      Effect s (.wmem a b) (((s.advance 3).writeMem (s.resolve a).toNat (s.resolve b).toNat).postInstruction s.pc)
  /-- A byte was emitted (rule R212). -/
  | emitted (a : Operand) : (Instr.out a).wellFormed = true →
      Effect s (.out a) (((s.advance 2).outByte ((s.resolve a).setWidth 8)).postInstruction s.pc)
  /-- Only the advance: noop, a jt or jf not taken. -/
  | advanced (i : Instr) : i.wellFormed = true →
      (∃ a b, i = .jt a b ∧ s.resolve a = 0) ∨ (∃ a b, i = .jf a b ∧ s.resolve a ≠ 0) ∨ i = .noop →
      Effect s i ((s.advance i.length).postInstruction s.pc)
  /-- A taken jump: jmp, jt, jf. `o` is the target operand. -/
  | jumped (i : Instr) (o : Operand) : i.wellFormed = true → o.fits .value = true →
      i = .jmp o ∨ (∃ a, i = .jt a o ∧ s.resolve a ≠ 0) ∨ (∃ a, i = .jf a o ∧ s.resolve a = 0) →
      Effect s i (((s.advance i.length).jump (s.resolve o)).postInstruction s.pc)
  /-- A push (rule R142). -/
  | pushed (a : Operand) : a.fits .value = true → s.used < s.cap.toNat → s.used < s.config.stackMax →
      Effect s (.push a) ({ s.advance 2 with stack := s.stack ++ [s.resolve a] }.postInstruction s.pc)
  /-- A call (rule R193). -/
  | called (a : Operand) : a.fits .value = true → s.used < s.cap.toNat → s.used < s.config.stackMax →
      Effect s (.call a) (({ s.advance 2 with stack := s.stack ++ [(s.pc + 2).setWidth 16] }.jump
        (s.resolve a)).postInstruction s.pc)
  /-- A pop (rule R143). -/
  | popped (d : Reg) (l : List Word) (v : Word) : s.stack = l ++ [v] →
      Effect s (.pop (.reg d)) (({ s.advance 2 with stack := l }.writeReg d v.toNat).postInstruction s.pc)
  /-- A return (rule R194). -/
  | returned (l : List Word) (v : Word) : s.stack = l ++ [v] →
      Effect s .ret (({ s.advance 1 with stack := l }.jump v).postInstruction s.pc)
  /-- A normal termination: halt, ret on an empty stack. -/
  | stopped (i : Instr) (r : HaltReason) :
      (i = .halt ∧ r = .haltInstr) ∨ (i = .ret ∧ s.stack = [] ∧ r = .retEmpty) →
      Effect s i ((s.advance 1).stop r)
  /-- An `in` that waits (rule R213). -/
  | waits (d : Reg) : Effect s (.in_ (.reg d)) { s.advance 2 with pendingIn := some d }
  /-- A fault of the execute phase (rules R231, R233). -/
  | faulted (i : Instr) (c : FaultCause) (v : Count) : i.wellFormed = true →
      (c = .divideByZero ∧ v = 0 ∧ ∃ x y z, i = .mod x y z ∧ s.resolve z = 0) ∨
        (c = .stackUnderflow ∧ v = 0 ∧ s.stack = [] ∧ ∃ a, i = .pop a) ∨
        (c = .memoryAddressOutOfBounds ∧ ∃ a b o, (i = .rmem a b ∧ o = b ∨ i = .wmem a b ∧ o = a) ∧
          32768 ≤ (s.resolve o).toNat ∧ v = (s.resolve o).setWidth 32) ∨
        (c = .stackInvariant ∧ s.cap.toNat ≤ s.used ∧ v = s.usedCount ∧ ∃ a, i = .push a ∨ i = .call a) ∨
        (c = .stackOverflow ∧ s.used < s.cap.toNat ∧ s.config.stackMax ≤ s.used ∧ v = s.usedCount ∧
          ∃ a, i = .push a ∨ i = .call a) →
      Effect s i ((s.advance i.length).raise s.pc c v)

/-- Every instruction answers a next state, by one of the effects. -/
theorem exec_effect (i : Instr) (s : State) : ∃ t, exec i s = .next t ∧ Effect s i t := by
  rcases Bool.eq_false_or_eq_true i.wellFormed with hw | hw
  swap
  · obtain ⟨c, v, hc, he⟩ := exec_illFormed (s := s) hw
    exact ⟨_, he, .illFormed _ _ _ hw hc⟩
  cases i with
  | halt => exact ⟨_, exec_halt, .stopped _ _ (.inl ⟨rfl, rfl⟩)⟩
  | noop => exact ⟨_, exec_noop, .advanced .noop hw (.inr (.inr rfl))⟩
  | set a b =>
    obtain ⟨ha, hb⟩ := fits_of_wf2 rfl hw
    obtain ⟨d, rfl⟩ := Operand.eq_reg_of_fits ha
    exact ⟨_, exec_set hb, .wroteReg (.set (.reg d) b) _ _ hw rfl (by simp) (by simp)⟩
  | not a b =>
    obtain ⟨ha, hb⟩ := fits_of_wf2 rfl hw
    obtain ⟨d, rfl⟩ := Operand.eq_reg_of_fits ha
    exact ⟨_, exec_not hb, .wroteReg (.not (.reg d) b) _ _ hw rfl (by simp) (by simp)⟩
  | eq a b c =>
    obtain ⟨ha, hb, hc⟩ := fits_of_wf3 rfl hw
    obtain ⟨d, rfl⟩ := Operand.eq_reg_of_fits ha
    exact ⟨_, exec_eq hb hc, .wroteReg (.eq (.reg d) b c) _ _ hw rfl (by simp) (by simp)⟩
  | gt a b c =>
    obtain ⟨ha, hb, hc⟩ := fits_of_wf3 rfl hw
    obtain ⟨d, rfl⟩ := Operand.eq_reg_of_fits ha
    exact ⟨_, exec_gt hb hc, .wroteReg (.gt (.reg d) b c) _ _ hw rfl (by simp) (by simp)⟩
  | add a b c =>
    obtain ⟨ha, hb, hc⟩ := fits_of_wf3 rfl hw
    obtain ⟨d, rfl⟩ := Operand.eq_reg_of_fits ha
    exact ⟨_, exec_add hb hc, .wroteReg (.add (.reg d) b c) _ _ hw rfl (by simp) (by simp)⟩
  | mult a b c =>
    obtain ⟨ha, hb, hc⟩ := fits_of_wf3 rfl hw
    obtain ⟨d, rfl⟩ := Operand.eq_reg_of_fits ha
    exact ⟨_, exec_mult hb hc, .wroteReg (.mult (.reg d) b c) _ _ hw rfl (by simp) (by simp)⟩
  | and a b c =>
    obtain ⟨ha, hb, hc⟩ := fits_of_wf3 rfl hw
    obtain ⟨d, rfl⟩ := Operand.eq_reg_of_fits ha
    exact ⟨_, exec_and hb hc, .wroteReg (.and (.reg d) b c) _ _ hw rfl (by simp) (by simp)⟩
  | or a b c =>
    obtain ⟨ha, hb, hc⟩ := fits_of_wf3 rfl hw
    obtain ⟨d, rfl⟩ := Operand.eq_reg_of_fits ha
    exact ⟨_, exec_or hb hc, .wroteReg (.or (.reg d) b c) _ _ hw rfl (by simp) (by simp)⟩
  | mod a b c =>
    obtain ⟨ha, hb, hc⟩ := fits_of_wf3 rfl hw
    obtain ⟨d, rfl⟩ := Operand.eq_reg_of_fits ha
    refine ⟨_, exec_mod hb hc, ?_⟩
    by_cases h : s.resolve c = 0
    · rw [if_pos h]
      exact .faulted (.mod (.reg d) b c) _ _ hw (.inl ⟨rfl, rfl, _, _, _, rfl, h⟩)
    · rw [if_neg h]
      exact .wroteReg (.mod (.reg d) b c) _ _ hw rfl (by simp) (by simp)
  | rmem a b =>
    obtain ⟨ha, hb⟩ := fits_of_wf2 rfl hw
    obtain ⟨d, rfl⟩ := Operand.eq_reg_of_fits ha
    refine ⟨_, exec_rmem hb, ?_⟩
    by_cases h : 32768 ≤ (s.resolve b).toNat
    · rw [if_pos h]
      exact .faulted (.rmem (.reg d) b) _ _ hw (.inr (.inr (.inl ⟨rfl, _, _, _, .inl ⟨rfl, rfl⟩, h, rfl⟩)))
    · rw [if_neg h]
      exact .wroteReg (.rmem (.reg d) b) _ _ hw rfl (by simp) (by simp)
  | wmem a b =>
    obtain ⟨ha, hb⟩ := fits_of_wf2 rfl hw
    refine ⟨_, exec_wmem ha hb, ?_⟩
    by_cases h : 32768 ≤ (s.resolve a).toNat
    · rw [if_pos h]
      exact .faulted (.wmem a b) _ _ hw (.inr (.inr (.inl ⟨rfl, _, _, _, .inr ⟨rfl, rfl⟩, h, rfl⟩)))
    · rw [if_neg h]
      exact .wroteMem a b hw (by omega)
  | out a => exact ⟨_, exec_out (fits_of_wf1 rfl hw), .emitted a hw⟩
  | jmp a =>
    have ha := fits_of_wf1 rfl hw
    exact ⟨_, exec_jmp ha, .jumped (.jmp a) a hw ha (.inl rfl)⟩
  | jt a b =>
    obtain ⟨ha, hb⟩ := fits_of_wf2 rfl hw
    refine ⟨_, exec_jt ha hb, ?_⟩
    by_cases h : s.resolve a = 0
    · rw [if_neg (not_not.2 h)]
      exact .advanced (.jt a b) hw (.inl ⟨a, b, rfl, h⟩)
    · rw [if_pos h]
      exact .jumped (.jt a b) b hw hb (.inr (.inl ⟨a, rfl, h⟩))
  | jf a b =>
    obtain ⟨ha, hb⟩ := fits_of_wf2 rfl hw
    refine ⟨_, exec_jf ha hb, ?_⟩
    by_cases h : s.resolve a = 0
    · rw [if_pos h]
      exact .jumped (.jf a b) b hw hb (.inr (.inr ⟨a, rfl, h⟩))
    · rw [if_neg h]
      exact .advanced (.jf a b) hw (.inr (.inl ⟨a, b, rfl, h⟩))
  | push a =>
    have ha := fits_of_wf1 rfl hw
    refine ⟨_, exec_push ha, ?_⟩
    by_cases h : s.cap.toNat ≤ s.used
    · rw [if_pos h]
      exact .faulted (.push a) _ _ hw (.inr (.inr (.inr (.inl ⟨rfl, h, rfl, _, .inl rfl⟩))))
    · rw [if_neg h]
      by_cases h' : s.config.stackMax ≤ s.used
      · rw [if_pos h']
        exact .faulted (.push a) _ _ hw (.inr (.inr (.inr (.inr ⟨rfl, by omega, h', rfl, _, .inl rfl⟩))))
      · rw [if_neg h']
        exact .pushed a ha (by omega) (by omega)
  | call a =>
    have ha := fits_of_wf1 rfl hw
    refine ⟨_, exec_call ha, ?_⟩
    by_cases h : s.cap.toNat ≤ s.used
    · rw [if_pos h]
      exact .faulted (.call a) _ _ hw (.inr (.inr (.inr (.inl ⟨rfl, h, rfl, _, .inr rfl⟩))))
    · rw [if_neg h]
      by_cases h' : s.config.stackMax ≤ s.used
      · rw [if_pos h']
        exact .faulted (.call a) _ _ hw (.inr (.inr (.inr (.inr ⟨rfl, by omega, h', rfl, _, .inr rfl⟩))))
      · rw [if_neg h']
        exact .called a ha (by omega) (by omega)
  | pop a =>
    obtain ⟨d, rfl⟩ := Operand.eq_reg_of_fits (fits_of_wf1 rfl hw)
    rcases s.stackPop_cases with ⟨h, -⟩ | ⟨l, v, h, -⟩
    · exact ⟨_, exec_pop_nil h, .faulted (.pop (.reg d)) _ _ hw (.inr (.inl ⟨rfl, rfl, h, _, rfl⟩))⟩
    · exact ⟨_, exec_pop_concat h, .popped d l v h⟩
  | ret =>
    rcases s.stackPop_cases with ⟨h, -⟩ | ⟨l, v, h, -⟩
    · exact ⟨_, exec_ret_nil h, .stopped _ _ (.inr ⟨rfl, h, rfl⟩)⟩
    · exact ⟨_, exec_ret_concat h, .returned l v h⟩
  | in_ a =>
    obtain ⟨d, rfl⟩ := Operand.eq_reg_of_fits (fits_of_wf1 rfl hw)
    exact ⟨_, exec_in, .waits d⟩

/-- The effect of an instruction that answered a next state. -/
theorem effect_of_exec {i : Instr} {s t : State} (h : exec i s = .next t) : Effect s i t := by
  obtain ⟨u, hu, he⟩ := exec_effect i s
  rw [hu] at h
  injection h with h
  rwa [← h]

end Sys2Proof.Machine
end

