-- ==== Sys2Proof/Laws/PerInstr.lean ====
section
/-! SUPPORT. The per-instruction family: an encoding is the opcode word and as many operand words as the opcode map
gives the opcode (rules R80, R89). -/

namespace Sys2Proof.Laws.Layout

/-- The encoding of `i` starts with its opcode word, which the opcode map gives the operand count of the words after
it, and which is one of 0 to 21. -/
def Statement (i : Instr) : Prop :=
  ∃ ws : List Word, encode i = i.opcode :: ws ∧ argc i.opcode = some ws.length ∧ i.opcode.toNat ≤ 21

theorem halt : Statement .halt := ⟨_, rfl, rfl, by decide⟩
theorem set (a b : Operand) : Statement (.set a b) := ⟨_, rfl, rfl, by show 1 ≤ 21; decide⟩
theorem push (a : Operand) : Statement (.push a) := ⟨_, rfl, rfl, by show 2 ≤ 21; decide⟩
theorem pop (a : Operand) : Statement (.pop a) := ⟨_, rfl, rfl, by show 3 ≤ 21; decide⟩
theorem eq (a b c : Operand) : Statement (.eq a b c) := ⟨_, rfl, rfl, by show 4 ≤ 21; decide⟩
theorem gt (a b c : Operand) : Statement (.gt a b c) := ⟨_, rfl, rfl, by show 5 ≤ 21; decide⟩
theorem jmp (a : Operand) : Statement (.jmp a) := ⟨_, rfl, rfl, by show 6 ≤ 21; decide⟩
theorem jt (a b : Operand) : Statement (.jt a b) := ⟨_, rfl, rfl, by show 7 ≤ 21; decide⟩
theorem jf (a b : Operand) : Statement (.jf a b) := ⟨_, rfl, rfl, by show 8 ≤ 21; decide⟩
theorem add (a b c : Operand) : Statement (.add a b c) := ⟨_, rfl, rfl, by show 9 ≤ 21; decide⟩
theorem mult (a b c : Operand) : Statement (.mult a b c) := ⟨_, rfl, rfl, by show 10 ≤ 21; decide⟩
theorem mod (a b c : Operand) : Statement (.mod a b c) := ⟨_, rfl, rfl, by show 11 ≤ 21; decide⟩
theorem and (a b c : Operand) : Statement (.and a b c) := ⟨_, rfl, rfl, by show 12 ≤ 21; decide⟩
theorem or (a b c : Operand) : Statement (.or a b c) := ⟨_, rfl, rfl, by show 13 ≤ 21; decide⟩
theorem not (a b : Operand) : Statement (.not a b) := ⟨_, rfl, rfl, by show 14 ≤ 21; decide⟩
theorem rmem (a b : Operand) : Statement (.rmem a b) := ⟨_, rfl, rfl, by show 15 ≤ 21; decide⟩
theorem wmem (a b : Operand) : Statement (.wmem a b) := ⟨_, rfl, rfl, by show 16 ≤ 21; decide⟩
theorem call (a : Operand) : Statement (.call a) := ⟨_, rfl, rfl, by show 17 ≤ 21; decide⟩
theorem ret : Statement .ret := ⟨_, rfl, rfl, by decide⟩
theorem out (a : Operand) : Statement (.out a) := ⟨_, rfl, rfl, by show 19 ≤ 21; decide⟩
theorem in_ (a : Operand) : Statement (.in_ a) := ⟨_, rfl, rfl, by show 20 ≤ 21; decide⟩
theorem noop : Statement .noop := ⟨_, rfl, rfl, by decide⟩

end Sys2Proof.Laws.Layout
end

