-- ==== Sys2Proof/Tests/Slice0.lean ====
section
/-! SUPPORT. The model's own tests. Expected results are the spec's: the encodings of rule R89's map, and the
vectors of 95_test_vectors.md, whose names stand beside them. Each runs one step, or one function. -/

namespace Sys2Proof.Tests

open Sys2Proof.Machine

/-- A state just after a program load of the words. -/
def boot (ws : List Word) : State := State.reset.programLoaded ws

/-- The next state of an outcome. -/
def nextOf (o : Host.Outcome State Fault Refusal) : Option State :=
  match o with
  | .next s => some s
  | .fault _ => none
  | .refused _ => none

/-- What a test reads of a state after one step. -/
def see {α : Type} (s : State) (f : State → α) : Option α := (nextOf (step s)).map f

/-- The fault record and `pc`. -/
def faultOf (s : State) : RunState × FaultCause × Count × Count × Count :=
  (s.runState, s.faultCause, s.faultPc, s.faultValue, s.pc)

/-! ### Decoding: one word list per constructor, written from rules R81, R83 and R89 -/

theorem test_decode_halt : decode [0] = .ok (.halt, []) := by decide
theorem test_decode_set : decode [1, 32770, 1234] = .ok (.set (.reg 2) (.lit 1234), []) := by decide
theorem test_decode_push : decode [2, 7] = .ok (.push (.lit 7), []) := by decide
theorem test_decode_pop : decode [3, 32769] = .ok (.pop (.reg 1), []) := by decide
theorem test_decode_eq : decode [4, 32768, 5, 32775] = .ok (.eq (.reg 0) (.lit 5) (.reg 7), []) := by decide
theorem test_decode_gt : decode [5, 32769, 10, 3] = .ok (.gt (.reg 1) (.lit 10) (.lit 3), []) := by decide
theorem test_decode_jmp : decode [6, 100] = .ok (.jmp (.lit 100), []) := by decide
theorem test_decode_jt : decode [7, 32768, 3] = .ok (.jt (.reg 0) (.lit 3), []) := by decide
theorem test_decode_jf : decode [8, 32768, 20] = .ok (.jf (.reg 0) (.lit 20), []) := by decide
theorem test_decode_add : decode [9, 32768, 32769, 4] = .ok (.add (.reg 0) (.reg 1) (.lit 4), []) := by decide
theorem test_decode_mult : decode [10, 32768, 300, 200] = .ok (.mult (.reg 0) (.lit 300) (.lit 200), []) := by decide
theorem test_decode_mod : decode [11, 32768, 7, 3] = .ok (.mod (.reg 0) (.lit 7) (.lit 3), []) := by decide
theorem test_decode_and : decode [12, 32768, 12, 10] = .ok (.and (.reg 0) (.lit 12) (.lit 10), []) := by decide
theorem test_decode_or : decode [13, 32768, 12, 10] = .ok (.or (.reg 0) (.lit 12) (.lit 10), []) := by decide
theorem test_decode_not : decode [14, 32768, 0] = .ok (.not (.reg 0) (.lit 0), []) := by decide
theorem test_decode_rmem : decode [15, 32770, 100] = .ok (.rmem (.reg 2) (.lit 100), []) := by decide
theorem test_decode_wmem : decode [16, 100, 32769] = .ok (.wmem (.lit 100) (.reg 1), []) := by decide
theorem test_decode_call : decode [17, 8] = .ok (.call (.lit 8), []) := by decide
theorem test_decode_ret : decode [18] = .ok (.ret, []) := by decide
theorem test_decode_out : decode [19, 32767] = .ok (.out (.lit 32767), []) := by decide
theorem test_decode_in : decode [20, 32771] = .ok (.in_ (.reg 3), []) := by decide
theorem test_decode_noop : decode [21, 5] = .ok (.noop, [5]) := by decide
theorem test_decode_first_invalid_word : decode [2, 32776] = .ok (.push (.inv 32776), []) := by decide
theorem test_decode_rejects_22 : decode [22] = .error (.invalidOpcode 22) := by decide
theorem test_decode_rejects_register_word : decode [32768] = .error (.invalidOpcode 32768) := by decide
theorem test_decode_rejects_short : decode [9, 32768, 1] = .error (.missingOperand 3) := by decide
theorem test_decode_rejects_nothing : decode [] = .error .noOpcodeWord := by decide
theorem test_decodeTableWord_set : decodeTableWord 16 1 = some (.set (.lit 0) (.lit 0)) := by decide
theorem test_decodeTableWord_add :
    decodeTableWord 64 (9 + 32768 * 2 ^ 16 + 32769 * 2 ^ 32 + 4 * 2 ^ 48)
      = some (.add (.reg 0) (.reg 1) (.lit 4)) := by decide

/-! ### Well-formedness: an ill-formed term for each check -/

theorem test_wf_refuses_invalid_value : (Instr.push (.inv 40000)).wellFormed = false := by decide
theorem test_wf_refuses_literal_destination : (Instr.set (.lit 5) (.lit 5)).wellFormed = false := by decide
theorem test_wf_refuses_invalid_destination : (Instr.pop (.inv 65535)).wellFormed = false := by decide
theorem test_wf_accepts : (Instr.add (.reg 0) (.reg 1) (.lit 4)).wellFormed = true := by decide

/-! ### Assembler syntax (rule R93) -/

theorem test_assembly_add : (Instr.add (.reg 0) (.reg 1) (.lit 4)).assembly = "add r0,r1,4" := by decide
theorem test_assembly_out : (Instr.out (.reg 0)).assembly = "out r0" := by decide

/-! ### Fetch and the operand check -/

/-- DEC1. -/
theorem test_DEC1 : see (boot [1, 32776, 5]) faultOf = some (.errored, .invalidOperand, 0, 32776, 0) := by decide
/-- DEC3. -/
theorem test_DEC3 : see (boot [4, 5, 40000, 0]) faultOf = some (.errored, .invalidDestination, 0, 5, 0) := by decide
/-- DEC5. -/
theorem test_DEC5 :
    see (boot [4, 32768, 32769, 65535]) faultOf = some (.errored, .invalidOperand, 0, 65535, 0) := by decide
/-- E8. -/
theorem test_E8 : see (boot [99]) faultOf = some (.errored, .invalidOpcode, 0, 99, 0) := by decide

/-- DEC15, from the jump on: `set` at 32766 lacks its second operand word. -/
theorem test_DEC15 :
    see { boot [] with pc := 32766, mem := ⟨[(32766, 1), (32767, 32768)]⟩ } faultOf
      = some (.errored, .operandFetchOutOfBounds, 32766, 32768, 32766) := by decide

/-- The last step of CTL13. -/
theorem test_fetch_past_end :
    see { boot [] with pc := 65535 } (fun t => (t.runState, t.haltReason, t.pc))
      = some (.halted, .pcOutOfRange, 65535) := by decide

/-! ### Moves -/

/-- MOV3. -/
theorem test_MOV3 :
    see ((boot [1, 32769, 32768]).restored ⟨.ofWords [1, 32769, 32768], #v[40000, 0, 0, 0, 0, 0, 0, 0], [], 32, 0⟩)
      (fun t => (t.readReg 0, t.readReg 1, t.pc)) = some (40000, 7232, 3) := by decide
/-- MOV6. -/
theorem test_MOV6 : see (boot [15, 32768, 1]) (fun t => (t.readReg 0, t.pc)) = some (0, 3) := by decide
/-- MOV5. -/
theorem test_MOV5 : see (boot [15, 32768, 0]) (fun t => t.readReg 0) = some 15 := by decide
/-- MOV10. -/
theorem test_MOV10 : see (boot [16, 32767, 5]) (fun t => (t.mem.read 32767, t.pc)) = some (5, 3) := by decide
/-- MOV9. -/
theorem test_MOV9 :
    see { boot [16, 32768, 5] with regs := #v[40000, 0, 0, 0, 0, 0, 0, 0] } faultOf
      = some (.errored, .memoryAddressOutOfBounds, 0, 40000, 3) := by decide
/-- P7: the word written is what the next fetch reads. -/
theorem test_P7 : see (boot [16, 3, 0, 19, 65]) (fun t => t.mem.fetchWords 3) = some [0] := by decide

/-! ### Stack -/

/-- STK1, the push. -/
theorem test_push : see (boot [2, 7, 3, 32769]) (fun t => (t.stack, t.cap, t.pc)) = some ([7], 32, 2) := by decide
/-- STK1, the pop. -/
theorem test_pop :
    see { boot [3, 32769] with stack := [9, 7] } (fun t => (t.stack, t.readReg 1)) = some ([9], 7) := by decide
/-- STK2. -/
theorem test_STK2 : see (boot [3, 32768]) faultOf = some (.errored, .stackUnderflow, 0, 0, 2) := by decide
/-- STK3, the 32nd push. -/
theorem test_STK3 :
    see { boot [2, 1] with stack := List.replicate 31 1 } (fun t => (t.used, t.cap)) = some (32, 64) := by decide
/-- STK4, the 17th pop. -/
theorem test_STK4 :
    see { boot [3, 32768] with stack := List.replicate 16 1, cap := 64 } (fun t => (t.used, t.cap))
      = some (15, 32) := by decide
/-- STK6. -/
theorem test_STK6 : see { boot [2, 1] with cap := 0 } faultOf = some (.errored, .stackInvariant, 0, 0, 2) := by decide
/-- STK7. -/
theorem test_STK7 :
    see { boot [21] with stack := [1, 2, 3, 4, 5], cap := 4 } faultOf
      = some (.errored, .stackInvariant, 0, 5, 1) := by decide
/-- STK9. -/
theorem test_STK9 :
    see { boot [21] with stack := List.replicate 9 0, cap := 40 } (fun t => (t.cap, t.runState))
      = some (20, .running) := by decide
/-- STK12, the third push. -/
theorem test_STK12 :
    see { boot [2, 3] with stack := [1, 2], config := ⟨2⟩ } (fun t => (faultOf t, t.stack))
      = some ((.errored, .stackOverflow, 0, 2, 2), [1, 2]) := by decide

/-! ### ALU -/

/-- ALU25. -/
theorem test_ALU25 :
    see { boot [4, 32769, 32768, 7232] with regs := #v[40000, 0, 0, 0, 0, 0, 0, 0] } (fun t => t.readReg 1)
      = some 0 := by decide
/-- ALU1. -/
theorem test_ALU1 : see (boot [4, 32768, 5, 5]) (fun t => (t.readReg 0, t.pc)) = some (1, 4) := by decide
/-- ALU6. -/
theorem test_ALU6 : see (boot [5, 32768, 32767, 0]) (fun t => t.readReg 0) = some 1 := by decide
/-- ALU5. -/
theorem test_ALU5 : see (boot [5, 32768, 0, 0]) (fun t => t.readReg 0) = some 0 := by decide
/-- ALU8. -/
theorem test_ALU8 : see (boot [9, 32768, 32767, 32767]) (fun t => t.readReg 0) = some 32766 := by decide
/-- Rule R112: `add r0,r0,r0` with `r0 = 20000`. -/
theorem test_add_source_is_destination :
    see { boot [9, 32768, 32768, 32768] with regs := #v[20000, 0, 0, 0, 0, 0, 0, 0] } (fun t => t.readReg 0)
      = some 7232 := by decide
/-- ALU10. -/
theorem test_ALU10 : see (boot [10, 32768, 32767, 32767]) (fun t => t.readReg 0) = some 1 := by decide
/-- ALU15. -/
theorem test_ALU15 : see (boot [11, 32768, 3, 10]) (fun t => t.readReg 0) = some 3 := by decide
/-- ALU17. -/
theorem test_ALU17 : see (boot [11, 32768, 5, 0]) faultOf = some (.errored, .divideByZero, 0, 0, 4) := by decide
/-- ALU19. -/
theorem test_ALU19 : see (boot [12, 32768, 12, 10]) (fun t => t.readReg 0) = some 8 := by decide
/-- ALU20. -/
theorem test_ALU20 : see (boot [13, 32768, 12, 10]) (fun t => t.readReg 0) = some 14 := by decide
/-- ALU23. -/
theorem test_ALU23 : see (boot [14, 32768, 21845]) (fun t => t.readReg 0) = some 10922 := by decide
/-- ALU24. -/
theorem test_ALU24 :
    see { boot [14, 32769, 32768] with regs := #v[40000, 0, 0, 0, 0, 0, 0, 0] } (fun t => t.readReg 1)
      = some 25535 := by decide

/-! ### Control transfer -/

/-- CTL1. -/
theorem test_CTL1 : see (boot [6, 100]) (fun t => t.pc) = some 100 := by decide
/-- CTL10. -/
theorem test_CTL10 :
    see { boot [7, 32768, 9] with regs := #v[40000, 0, 0, 0, 0, 0, 0, 0] } (fun t => t.pc) = some 9 := by decide
/-- CTL3. -/
theorem test_CTL3 : see (boot [7, 32768, 9]) (fun t => t.pc) = some 3 := by decide
/-- CTL4. -/
theorem test_CTL4 : see (boot [8, 0, 20]) (fun t => t.pc) = some 20 := by decide
/-- CTL5. -/
theorem test_CTL5 : see (boot [8, 1, 20]) (fun t => t.pc) = some 3 := by decide
/-- CTL8. -/
theorem test_CTL8 : see (boot [17, 10]) (fun t => (t.pc, t.stack)) = some (10, [2]) := by decide
/-- STK14. -/
theorem test_STK14 :
    see { boot [17, 32768] with stack := [9], cap := 1 } (fun t => (faultOf t, t.stack))
      = some ((.errored, .stackInvariant, 0, 1, 2), [9]) := by decide
/-- CTL13. -/
theorem test_CTL13 : see { boot [18] with stack := [65535] } (fun t => (t.pc, t.stack)) = some (65535, []) := by decide
/-- CTL7. -/
theorem test_CTL7 :
    see (boot [18]) (fun t => (t.runState, t.haltReason, t.pc)) = some (.halted, .retEmpty, 1) := by decide

/-! ### System and I/O -/

/-- SYS1. -/
theorem test_SYS1 :
    see (boot [0]) (fun t => (t.runState, t.haltReason, t.pc)) = some (.halted, .haltInstr, 1) := by decide
/-- SYS2. -/
theorem test_SYS2 : see (boot [21]) (fun t => (t.runState, t.pc)) = some (.running, 1) := by decide
/-- SYS3. -/
theorem test_SYS3 : see (boot [19, 321]) (fun t => (t.output, t.pc)) = some ([65], 2) := by decide
/-- SYS6, the issue half. -/
theorem test_SYS6 :
    see (boot [20, 32771]) (fun t => (t.pendingIn, t.runState, t.pc, t.readReg 3)) = some (some 3, .running, 2, 0) := by
  decide
/-- SYS5, the completion half. -/
theorem test_SYS5 :
    see { boot [20, 32768] with pc := 2, pendingIn := some 0, input := [65, 7] }
      (fun t => (t.readReg 0, t.pendingIn, t.input, t.pc)) = some (65, none, [7], 2) := by decide
/-- SYS6, the stall. -/
theorem test_stall_has_no_step : see { boot [] with pendingIn := some 3 } id = none := by decide

/-! ### Checkpoint request -/

/-- CK1. -/
theorem test_CK1 :
    see ({ boot [1, 32768, 5] with pc := 3 }.requestCheckpoint) (fun t => (t.runState, t.pc, t.ckptReq))
      = some (.checkpointed, 3, false) := by decide
/-- CK3. -/
theorem test_CK3 :
    see ({ boot [20, 32768] with pc := 2, pendingIn := some 0, input := [65] }.requestCheckpoint)
      (fun t => (t.runState, t.pc, t.pendingIn, t.readReg 0, t.input))
      = some (.checkpointed, 2, none, 0, [65]) := by decide
/-- CK5. -/
theorem test_CK5 :
    ({ boot [0] with runState := .halted, haltReason := .haltInstr }.requestCheckpoint).ckptReq = false := by decide

/-! ### The host's tools and files -/

theorem test_withFetchWord_pop : see (State.reset.withFetchWord 16 3) faultOf
    = some (.errored, .invalidDestination, 0, 0, 0) := by decide
theorem test_withFetchWord_push : see (State.reset.withFetchWord 16 2) (fun t => t.stack) = some [0] := by decide
/-- E6: the program file of the source's scenario. -/
theorem test_E6 :
    programOfFile [0x09, 0x00, 0x00, 0x80, 0x01, 0x80, 0x04, 0x00, 0x13, 0x00, 0x00, 0x80, 0x00, 0x00]
      = some [9, 32768, 32769, 4, 19, 32768, 0] := by decide

/-! ### Witnesses: for each statement of Certificates/Slice0/Obligations.lean that has hypotheses, a state and operands
that meet them together, each clause at a boundary of its range -/

/-- A state with a register outside the 15-bit domain, as a restore leaves it (rule R271). -/
def wild : State := { boot [] with regs := #v[32768, 0, 0, 0, 0, 0, 0, 65535] }

/-- A state whose stack is one entry short of full, as capacity and as physical depth. -/
def nearlyFull : State := { boot [] with stack := [1], cap := 2, config := ⟨2⟩ }

theorem witness_DecodeOfEncodeIsTheInstruction :
    (Instr.add (.reg 0) (.reg 7) (.lit 32767)).wellFormed = true ∧ Instr.halt.wellFormed = true := by decide

theorem witness_EncodeOfDecodeIsTheWords :
    decode [21, 65535] = .ok (.noop, [65535]) ∧ decode [2, 65535] = .ok (.push (.inv 65535), []) := by decide

theorem witness_OpcodeWordsValidOrFault :
    (boot [22]).ready ∧ (boot [22]).pc.toNat < 32768 ∧ 22 ≤ ((boot [22]).mem.read (boot [22]).pc.toNat).toNat := by
  unfold State.ready; decide

theorem witness_StepRunsTheDecodedInstruction :
    (boot [9, 32768, 32769, 4]).ready ∧ (boot [9, 32768, 32769, 4]).pc.toNat < 32768 ∧
      decode ((boot [9, 32768, 32769, 4]).mem.fetchWords 0) = .ok (.add (.reg 0) (.reg 1) (.lit 4), []) := by
  unfold State.ready; decide

/-- A two-word instruction in the last two cells of memory. -/
theorem witness_StepRunsTheEncodedWords :
    let s := { boot [] with pc := 32766, mem := ⟨[(32766, 19), (32767, 65)]⟩ }
    s.ready ∧ (Instr.out (.lit 65)).wellFormed = true ∧ s.pc.toNat + (Instr.out (.lit 65)).length ≤ 32768 ∧
      ∀ k, k < (Instr.out (.lit 65)).length →
        (encode (.out (.lit 65)))[k]? = some (s.mem.read (s.pc.toNat + k)) := by
  unfold State.ready; decide

theorem witness_StepEnabledExactlyInRunning :
    ((boot []).runState = .running ∧ (boot []).pendingIn = none) ∧
      ({ boot [] with pendingIn := some 7 }.runState = .running ∧
        { boot [] with pendingIn := some 7 }.pendingIn = some 7) := by decide

theorem witness_FetchPastMemoryHalts :
    { boot [] with pc := 32768 }.ready ∧ 32768 ≤ { boot [] with pc := 32768 }.pc.toNat := by
  unfold State.ready; decide

/-- `set` at 32765 has its two operand words, at 32766 it lacks the second. -/
theorem witness_OperandFetchLatchesOrFaults :
    let s := { boot [] with pc := 32765, mem := ⟨[(32765, 1)]⟩ }
    let t := { boot [] with pc := 32766, mem := ⟨[(32766, 1)]⟩ }
    (s.ready ∧ s.pc.toNat < 32768 ∧ argc (s.mem.read s.pc.toNat) = some 2 ∧ s.pc.toNat + 2 < 32768) ∧
      (t.ready ∧ t.pc.toNat < 32768 ∧ argc (t.mem.read t.pc.toNat) = some 2 ∧ 32768 ≤ t.pc.toNat + 2) := by
  unfold State.ready; decide

theorem witness_OperandCheckInPositionOrder :
    ((Instr.eq (.reg 0) (.inv 32776) (.inv 65535)).operands =
        [(.dest, .reg 0)] ++ (.value, .inv 32776) :: [(.value, .inv 65535)] ∧
      (∀ q ∈ [(Role.dest, Operand.reg 0)], q.2.fits q.1 = true) ∧ (Operand.inv 32776).fits .value = false) ∧
    ((Instr.pop (.lit 32767)).operands = [] ++ (.dest, .lit 32767) :: [] ∧
      (Operand.lit 32767).fits .dest = false) := by decide

/-- A `pop`, a `mod` and a `push`, each of which leaves `used` one above the capacity. -/
theorem witness_PostInstructionFaultKeepsEffects :
    let s := { boot [] with stack := [1, 2], cap := 0 }
    let r := { boot [] with stack := [1, 2], cap := 1 }
    let q := { boot [] with stack := [1, 2], cap := 2 }
    (∃ u, exec (.pop (.reg 3)) { s with cap := 2 } = .next u ∧ u.runState = .running ∧ u.pendingIn = none ∧
      s.cap.toNat < u.used) ∧
    (∃ u, exec (.mod (.reg 3) (.lit 7) (.lit 3)) { r with cap := 2 } = .next u ∧ u.runState = .running ∧
      u.pendingIn = none ∧ r.cap.toNat < u.used) ∧
    ∃ u, exec (.push (.lit 3)) { q with cap := 3 } = .next u ∧ u.runState = .running ∧ u.pendingIn = none ∧
      q.cap.toNat < u.used :=
  ⟨⟨_, rfl, rfl, rfl, by decide⟩, ⟨_, rfl, rfl, rfl, by decide⟩, ⟨_, rfl, rfl, rfl, by decide⟩⟩

/-- An instruction that continues, one that stops and one that waits. -/
theorem witness_ReconcileRunsOnlyAfterContinue :
    ((boot []).runState = .running ∧ (boot []).pendingIn = none) ∧
      exec .noop (boot []) = .next { boot [] with pc := 1 } ∧
      exec .halt (boot []) = .next { boot [] with pc := 1, runState := .halted, haltReason := .haltInstr } ∧
      exec (.in_ (.reg 0)) (boot []) = .next { boot [] with pc := 2, pendingIn := some 0 } :=
  ⟨⟨rfl, rfl⟩, rfl, rfl, rfl⟩

/-- Grow at 32 of 32, shrink at 15 of 64, no change at 16 of 64. -/
theorem witness_ReconcileGrowsAndShrinks :
    let grow := { boot [] with stack := List.replicate 32 1 }
    let shrink := { boot [] with stack := List.replicate 15 1, cap := 64 }
    let keep := { boot [] with stack := List.replicate 16 1, cap := 64 }
    (grow.config.wf ∧ grow.used ≤ grow.config.stackMax ∧ grow.used ≤ grow.cap.toNat ∧ grow.used = grow.cap.toNat) ∧
      (shrink.config.wf ∧ shrink.used ≤ shrink.config.stackMax ∧ shrink.used ≤ shrink.cap.toNat ∧
        shrink.used ≠ shrink.cap.toNat ∧ 32 < shrink.cap.toNat ∧ shrink.used < shrink.cap.toNat / 4) ∧
      (keep.config.wf ∧ keep.used ≤ keep.config.stackMax ∧ keep.used ≤ keep.cap.toNat ∧
        keep.used ≠ keep.cap.toNat ∧ ¬ (32 < keep.cap.toNat ∧ keep.used < keep.cap.toNat / 4)) := by decide

theorem witness_SetWritesResolvedValue :
    (Operand.reg 7).fits .value = true ∧ (Operand.lit 32767).fits .value = true ∧ wild.used ≤ wild.cap.toNat := by
  decide

theorem witness_RmemReadsCellOrFaults :
    ((Operand.lit 32767).fits .value = true ∧ (wild.resolve (.lit 32767)).toNat < 32768 ∧
      wild.used ≤ wild.cap.toNat) ∧
    ((Operand.reg 0).fits .value = true ∧ 32768 ≤ (wild.resolve (.reg 0)).toNat) := by decide

theorem witness_WmemWritesCellOrFaults :
    ((Operand.lit 32767).fits .value = true ∧ (Operand.reg 7).fits .value = true ∧
      (wild.resolve (.lit 32767)).toNat < 32768 ∧ wild.used ≤ wild.cap.toNat ∧ wild.mem.wf) ∧
    ((Operand.reg 0).fits .value = true ∧ 32768 ≤ (wild.resolve (.reg 0)).toNat) := by decide

/-- Of `push`, and of `call` at 32766 in a memory of 32768 words: room for one entry, no free slot, no physical
depth. -/
theorem witness_PushAddsTopOrFaults :
    (Operand.reg 7).fits .value = true ∧
      (nearlyFull.used < nearlyFull.cap.toNat ∧ nearlyFull.used < nearlyFull.config.stackMax) ∧
      { nearlyFull with cap := 1 }.cap.toNat ≤ { nearlyFull with cap := 1 }.used ∧
      ({ nearlyFull with config := ⟨1⟩ }.used < { nearlyFull with config := ⟨1⟩ }.cap.toNat ∧
        { nearlyFull with config := ⟨1⟩ }.config.stackMax ≤ { nearlyFull with config := ⟨1⟩ }.used) := by decide

/-- An entry on a stack filled to its capacity, which a restore allows, and an empty stack. -/
theorem witness_PopTakesTopOrFaults :
    ({ boot [] with stack := [65535], cap := 0 }.stack = [] ++ [65535] ∧
      ([] : List Word).length ≤ { boot [] with stack := [65535], cap := 0 }.cap.toNat) ∧
    (boot []).stack = [] := by decide

theorem witness_PushThenPopGivesValueBack :
    ((Operand.lit 7).fits .value = true ∧ nearlyFull.used < nearlyFull.cap.toNat ∧
      nearlyFull.used < nearlyFull.config.stackMax ∧ nearlyFull.config.wf) ∧
    ∃ t, exec (.push (.lit 7)) nearlyFull = .next t ∧ ∃ u, exec (.pop (.reg 3)) t = .next u :=
  ⟨by decide, _, rfl, _, rfl⟩

theorem witness_EqAndGtWriteOneOrZero :
    (Operand.reg 0).fits .value = true ∧ (Operand.lit 0).fits .value = true ∧ wild.used ≤ wild.cap.toNat := by decide

theorem witness_AddAndMultWrapMod32768 :
    (Operand.reg 7).fits .value = true ∧ (Operand.lit 32767).fits .value = true ∧ wild.used ≤ wild.cap.toNat := by
  decide

theorem witness_AndOrNotWorkBitwise :
    (Operand.reg 7).fits .value = true ∧ (Operand.lit 21845).fits .value = true ∧ wild.used ≤ wild.cap.toNat := by
  decide

theorem witness_ModWritesRemainderOrFaults :
    ((Operand.reg 7).fits .value = true ∧ (Operand.lit 1).fits .value = true ∧ wild.resolve (.lit 1) ≠ 0 ∧
      wild.used ≤ wild.cap.toNat) ∧
    ((Operand.reg 1).fits .value = true ∧ wild.resolve (.reg 1) = 0) := by decide

theorem witness_JmpSetsAbsoluteTarget :
    (Operand.reg 7).fits .value = true ∧ wild.used ≤ wild.cap.toNat := by decide

/-- Both conditions of `jt` and of `jf`. -/
theorem witness_JtAndJfJumpOnCondition :
    (Operand.reg 0).fits .value = true ∧ (Operand.reg 1).fits .value = true ∧ (Operand.lit 32767).fits .value = true ∧
      wild.used ≤ wild.cap.toNat ∧ (wild.resolve (.reg 0)).toNat ≠ 0 ∧ (wild.resolve (.reg 1)).toNat = 0 := by decide

theorem witness_CallPushesReturnAddress :
    let s := { nearlyFull with pc := 32766 }
    (Operand.lit 8).fits .value = true ∧ s.pc.toNat + 2 ≤ 32768 ∧
      (s.used < s.cap.toNat ∧ s.used < s.config.stackMax) ∧
      { s with cap := 1 }.cap.toNat ≤ { s with cap := 1 }.used ∧
      ({ s with config := ⟨1⟩ }.used < { s with config := ⟨1⟩ }.cap.toNat ∧
        { s with config := ⟨1⟩ }.config.stackMax ≤ { s with config := ⟨1⟩ }.used) := by decide

theorem witness_RetPopsTargetOrHalts :
    ({ boot [] with stack := [65535], cap := 0 }.stack = [] ++ [65535] ∧
      ([] : List Word).length ≤ { boot [] with stack := [65535], cap := 0 }.cap.toNat) ∧
    (boot []).stack = [] := by decide

theorem witness_CallThenRetReturnsPastCall :
    ((Operand.lit 8).fits .value = true ∧ { nearlyFull with pc := 32766 }.pc.toNat + 2 ≤ 32768 ∧
      nearlyFull.used < nearlyFull.cap.toNat ∧ nearlyFull.used < nearlyFull.config.stackMax ∧
      nearlyFull.config.wf) ∧
    ∃ t, exec (.call (.lit 8)) { nearlyFull with pc := 32766 } = .next t ∧ ∃ v, exec .ret t = .next v :=
  ⟨by decide, _, rfl, _, rfl⟩

theorem witness_NoopOnlyAdvances :
    { boot [] with stack := [1], cap := 1 }.used ≤ { boot [] with stack := [1], cap := 1 }.cap.toNat := by decide

theorem witness_OutEmitsLowByte :
    (Operand.reg 7).fits .value = true ∧ wild.used ≤ wild.cap.toNat := by decide

/-- With a request, with a byte offered and a capacity that passes, with one that does not, and with no byte. -/
theorem witness_InCompletionWritesByte :
    let s := { boot [] with pendingIn := some 7, input := [255], stack := [1], cap := 1 }
    let t := { s with cap := 0 }
    let u := { s with input := [] }
    (s.runState = .running ∧ s.pendingIn = some 7 ∧ s.ckptReq = false ∧ s.input = 255 :: [] ∧
      s.used ≤ s.cap.toNat) ∧
    (t.runState = .running ∧ t.pendingIn = some 7 ∧ t.ckptReq = false ∧ t.input = 255 :: [] ∧
      t.cap.toNat < t.used) ∧
    (u.runState = .running ∧ u.pendingIn = some 7 ∧ u.ckptReq = false ∧ u.input = []) ∧
    ({ s with ckptReq := true }.runState = .running ∧ { s with ckptReq := true }.pendingIn = some 7 ∧
      { s with ckptReq := true }.ckptReq = true) := by decide

/-- At an instruction boundary and while an `in` waits. -/
theorem witness_LatchedRequestEndsRun :
    ({ boot [] with ckptReq := true }.runState = .running ∧ { boot [] with ckptReq := true }.ckptReq = true) ∧
      ({ boot [] with ckptReq := true, pendingIn := some 0 }.runState = .running ∧
        { boot [] with ckptReq := true, pendingIn := some 0 }.ckptReq = true) := by decide

theorem witness_RequestIsLatchedWhileRunning :
    (boot []).runState = .running ∧ { boot [] with runState := .halted }.runState ≠ .running := by decide

/-- Each cause: an empty `pop`, a zero divisor, an address past memory, no physical depth, no free slot, and a
STACK_INVARIANT after an instruction's effects. -/
theorem witness_ExecuteFaultsArePrecise :
    let w (i : Instr) (s : State) (c : FaultCause) : Prop := ∃ t, s.runState = .running ∧ i.wellFormed = true ∧
      exec i s = .next t ∧ t.runState = .errored ∧ t.faultCause = c
    w (.pop (.reg 0)) (boot []) .stackUnderflow ∧ w (.mod (.reg 0) (.lit 1) (.reg 1)) wild .divideByZero ∧
      w (.rmem (.reg 0) (.reg 0)) wild .memoryAddressOutOfBounds ∧
      w (.wmem (.reg 0) (.lit 1)) wild .memoryAddressOutOfBounds ∧
      w (.push (.lit 1)) { nearlyFull with config := ⟨1⟩ } .stackOverflow ∧
      w (.call (.lit 1)) { nearlyFull with cap := 1 } .stackInvariant ∧
      w .noop { nearlyFull with cap := 0 } .stackInvariant :=
  ⟨⟨_, rfl, rfl, rfl, rfl, rfl⟩, ⟨_, rfl, rfl, rfl, rfl, rfl⟩, ⟨_, rfl, rfl, rfl, rfl, rfl⟩,
    ⟨_, rfl, rfl, rfl, rfl, rfl⟩, ⟨_, rfl, rfl, rfl, rfl, rfl⟩, ⟨_, rfl, rfl, rfl, rfl, rfl⟩,
    ⟨_, rfl, rfl, rfl, rfl, rfl⟩⟩

/-- The shortest image and the longest. -/
theorem witness_ProgramLoadSetsEveryState :
    { boot [] with runState := .halted }.runState ≠ .running ∧ ([] : List Word).length ≤ 32768 ∧
      (List.replicate 32768 (0 : Word)).length ≤ 32768 :=
  ⟨by decide, by decide, by rw [List.length_replicate]⟩

/-- An image as deep as the physical depth. -/
theorem witness_RestoreSetsEveryState :
    { nearlyFull with runState := .errored }.runState ≠ .running ∧
      (⟨⟨[]⟩, wild.regs, [1, 2], 0, 65535⟩ : StateImage).stack.length ≤ nearlyFull.config.stackMax := by decide

/-- The invariant of all states at reset, with the fields that decide it. -/
theorem witness_wf_reset : State.reset.wf := by
  unfold State.wf State.statusWf; decide

/-- The invariant of states from a program load at reset. -/
theorem witness_loadInv_reset : State.reset.loadInv := by
  unfold State.loadInv
  exact ⟨witness_wf_reset, by decide, by decide, fun _ h => absurd h (List.not_mem_nil), ⟨5, by decide, by decide, by decide⟩, by decide, by decide⟩

theorem witness_CheckpointFileResumesRun :
    ∃ t, State.reset.wf ∧ State.reset.runState = .running ∧ State.reset.pendingIn = none ∧
      step { State.reset with ckptReq := true } = .next t ∧
      { State.reset with runState := .halted }.runState ≠ .running ∧
      { State.reset with runState := .halted }.config = State.reset.config :=
  ⟨_, witness_wf_reset, rfl, rfl, rfl, by decide, rfl⟩

theorem witness_CheckpointFileRoundTrip :
    (⟨⟨[(0, 1), (32767, 65535)]⟩, wild.regs, [65535], 0, 65535⟩ : StateImage).mem.wf ∧
      (⟨⟨[(0, 1), (32767, 65535)]⟩, wild.regs, [65535], 0, 65535⟩ : StateImage).stack.length < 2 ^ 32 := by decide

theorem witness_ProgramFileIsLittleEndian :
    ([0x1234, 0x8000] : List Word).length ≤ 32768 ∧
      ([0x1234, 0x8000] : List Word).flatMap (fun w => [w.extractLsb' 0 8, w.extractLsb' 8 8])
        = [0x34, 0x12, 0x00, 0x80] := by decide

/-- Words of zeros are read from bytes of zeros. -/
theorem takeWords_zeros (n : Nat) (r : List Byte) :
    takeWords n (List.replicate (2 * n) 0 ++ r) = some (List.replicate n 0, r) := by
  induction n with
  | zero => rfl
  | succ n ih =>
    rw [show 2 * (n + 1) = 2 * n + 1 + 1 by omega, List.replicate_succ, List.replicate_succ]
    simp only [List.cons_append, takeWords, ih, List.replicate_succ]
    rfl

/-- A file of 65564 zero bytes is an image (rule R68). -/
theorem witness_HostRefusesBadImages_file :
    ∃ img, imageOfFile (List.replicate (2 * memWords) 0 ++ (List.replicate (2 * 8) 0 ++ List.replicate 12 0)) = some img := by
  refine ⟨⟨.ofWords (List.replicate memWords 0), .ofFn fun i => (List.replicate 8 (0 : Word)).getD i.val 0, [], 0, 0⟩, ?_⟩
  simp only [imageOfFile, takeWords_zeros, Option.bind_eq_bind, Option.bind_some]
  rfl

/-- A checkpoint file without its last field. -/
theorem witness_HostRefusesBadImages_cut :
    ∃ bs cut, (⟨⟨[]⟩, wild.regs, [1, 2], 2, 0⟩ : StateImage).stack.length < 2 ^ 32 ∧ cut ≠ [] ∧
      checkpointFile ⟨⟨[]⟩, wild.regs, [1, 2], 2, 0⟩ = bs ++ cut :=
  ⟨_, countBytes 0, by decide, by decide, rfl⟩

/-- An odd file, a file and an image one too long, an image too deep, a core that is RUNNING. The long ones
are given by their length alone. -/
theorem witness_HostRefusesBadImages :
    ([0] : List Byte).length % 2 = 1 ∧ 65536 < (List.replicate 65537 (0 : Byte)).length ∧
      32768 < (List.replicate 32769 (0 : Word)).length ∧
      { nearlyFull with config := ⟨1⟩ }.config.stackMax
        < (⟨⟨[]⟩, wild.regs, [1, 2], 2, 0⟩ : StateImage).stack.length ∧ nearlyFull.runState = .running :=
  ⟨by decide, by rw [List.length_replicate]; decide, by rw [List.length_replicate]; decide, by decide, rfl⟩

theorem witness_MemoryReadAfterWrite :
    (⟨[(0, 1), (32767, 65535)]⟩ : Memory).wf ∧ 32767 < 32768 ∧ 0 ≠ 32767 := by decide

theorem witness_CanonicalMemoryIsItsCells :
    (⟨[(7, 1)]⟩ : Memory).wf ∧ (⟨[(7, 1)]⟩ : Memory).wf ∧
      ∀ a, a < 32768 → (⟨[(7, 1)]⟩ : Memory).read a = (⟨[(7, 1)]⟩ : Memory).read a :=
  ⟨by decide, by decide, fun _ _ => rfl⟩

theorem witness_StepKeepsWellFormedState :
    State.reset.wf ∧ ∃ t, step State.reset = .next t := ⟨witness_wf_reset, _, rfl⟩

theorem witness_StepKeepsLoadInvariants :
    State.reset.loadInv ∧ ∃ t, step State.reset = .next t := ⟨witness_loadInv_reset, _, rfl⟩

/-- A load, an offered byte, a request, a step and another load. -/
theorem witness_RunsFromLoadKeepInvariants :
    State.reset.config.wf ∧ ([20, 32768] : List Word).length ≤ 32768 ∧
      (∀ e ∈ [Event.offer 65, .step, .step, .request, .step, .load [0], .step], e.isRestore = false) ∧
      ∃ t, (State.reset.programLoaded [20, 32768]).applyAll
        [.offer 65, .step, .step, .request, .step, .load [0], .step] = some t :=
  ⟨by decide, by decide, by decide, _, rfl⟩

theorem witness_HostActsKeepWellFormedState :
    let s := { State.reset with runState := .checkpointed }
    let img : StateImage := ⟨⟨[(0, 1)]⟩, wild.regs, [65535], 0, 65535⟩
    Event.restore img ≠ .step ∧ (Event.restore img).wf ∧ s.wf ∧ ∃ t, s.apply (.restore img) = some t :=
  ⟨by decide, by unfold Event.wf; decide, by unfold State.wf State.statusWf; decide, _, rfl⟩

theorem witness_OnlyDestinationsAreWritten :
    ∃ t, step (boot [1, 32769, 9]) = .next t ∧ t.readReg 1 ≠ (boot [1, 32769, 9]).readReg 1 := ⟨_, rfl, by decide⟩

theorem witness_PcAdvancesOrTransfers : ∃ t, step (boot [6, 100]) = .next t ∧ t.pc ≠ (boot [6, 100]).pc :=
  ⟨_, rfl, by decide⟩

theorem witness_OnlyFourInstructionsUseStack :
    ∃ t, step (boot [17, 100]) = .next t ∧ t.stack ≠ (boot [17, 100]).stack := ⟨_, rfl, by decide⟩

theorem witness_CapacityHasNoEffectOnValues :
    { nearlyFull with mem := ⟨[(0, 2)]⟩ }.used < { nearlyFull with mem := ⟨[(0, 2)]⟩ }.cap.toNat ∧
      { nearlyFull with mem := ⟨[(0, 2)]⟩ }.used < (64 : Count).toNat ∧
      ∃ t, step { nearlyFull with mem := ⟨[(0, 2)]⟩ } = .next t := ⟨by decide, by decide, _, rfl⟩

theorem witness_OfferedBytesHaveNoEffectBeforeIn :
    (boot [20, 32768]).pendingIn = none ∧ ∃ t, step (boot [20, 32768]) = .next t := ⟨rfl, _, rfl⟩

end Sys2Proof.Tests
end

/-! ## Proofs about the state (10_state.md): what every step keeps, and the status outputs -/

namespace Sys2Proof

/-! ### The words a decoded instruction takes -/

section
variable {ws rest : List Word} {i : Instr}

/-- Format F1 takes one operand word (rule R81). -/
theorem decodeF1_ok {mk : Operand → Instr} (h : decodeF1 mk ws = .ok (i, rest)) :
    ∃ a, i = mk (.ofWord a) ∧ ws = a :: rest := by
  match ws, h with
  | a :: _, rfl => exact ⟨a, rfl, rfl⟩

/-- Format F2 takes two operand words (rule R81). -/
theorem decodeF2_ok {mk : Operand → Operand → Instr} (h : decodeF2 mk ws = .ok (i, rest)) :
    ∃ a b, i = mk (.ofWord a) (.ofWord b) ∧ ws = a :: b :: rest := by
  match ws, h with
  | a :: b :: _, rfl => exact ⟨a, b, rfl, rfl⟩

/-- Format F3 takes three operand words (rule R81). -/
theorem decodeF3_ok {mk : Operand → Operand → Operand → Instr} (h : decodeF3 mk ws = .ok (i, rest)) :
    ∃ a b c, i = mk (.ofWord a) (.ofWord b) (.ofWord c) ∧ ws = a :: b :: c :: rest := by
  match ws, h with
  | a :: b :: c :: _, rfl => exact ⟨a, b, c, rfl, rfl⟩

/-- The words decoded are the instruction's own and the words after it (rule R80). -/
theorem decode_length (h : decode ws = .ok (i, rest)) : ws.length = i.length + rest.length := by
  unfold decode at h
  split at h
  · cases h
  · split at h
    case h_2 | h_8 | h_9 | h_15 | h_16 | h_17 =>
      obtain ⟨a, b, rfl, rfl⟩ := decodeF2_ok h
      simp [Instr.length, Instr.operands]; omega
    case h_3 | h_4 | h_7 | h_18 | h_20 | h_21 =>
      obtain ⟨a, rfl, rfl⟩ := decodeF1_ok h
      simp [Instr.length, Instr.operands]; omega
    case h_5 | h_6 | h_10 | h_11 | h_12 | h_13 | h_14 =>
      obtain ⟨a, b, c, rfl, rfl⟩ := decodeF3_ok h
      simp [Instr.length, Instr.operands]; omega
    case h_1 | h_19 | h_22 =>
      cases h
      simp [Instr.length, Instr.operands]; omega
    case h_23 => cases h

/-- A fetched instruction lies in memory, so the advance past it ends at 32768 at most (rules R106, R108). -/
theorem Machine.Memory.length_le_of_decode {m : Memory} {p : Nat} (hp : p < 32768)
    (h : decode (m.fetchWords p) = .ok (i, rest)) : p + i.length ≤ 32768 := by
  have hlen := decode_length h
  rw [Memory.fetchWords, List.length_cons, Memory.readWords_length, memWords_eq] at hlen
  omega

end

end Sys2Proof

namespace Sys2Proof.Machine

/-! ### Well-formedness under the updates an instruction makes -/

section
variable {s : State}

@[simp] theorem State.wf_advance (n : Nat) : (s.advance n).wf ↔ s.wf := Iff.rfl
@[simp] theorem State.wf_writeReg (d : Reg) (v : Nat) : (s.writeReg d v).wf ↔ s.wf := Iff.rfl
@[simp] theorem State.wf_jump (w : Word) : (s.jump w).wf ↔ s.wf := Iff.rfl

theorem State.wf_writeMem (h : s.wf) {a : Nat} (v : Nat) (ha : a < 32768) : (s.writeMem a v).wf := by
  obtain ⟨hmem, hused, hconfig, hstatus⟩ := h
  exact ⟨Memory.write_wf _ _ hmem (by simpa using ha), hused, hconfig, hstatus⟩

theorem State.wf_withStack (h : s.wf) {l : List Word} (hl : l.length ≤ s.config.stackMax) :
    { s with stack := l }.wf := by
  obtain ⟨hmem, -, hconfig, hstatus⟩ := h
  exact ⟨hmem, hl, hconfig, hstatus⟩

/-- While RUNNING, no reason to halt and no fault is recorded (rules R32, R232). -/
theorem State.status_of_running (h : s.statusWf) (hr : s.runState = .running) :
    s.haltReason = .none ∧ s.faultCause = .none ∧ s.faultPc = 0 ∧ s.faultValue = 0 := by
  obtain ⟨hhalt, hfault, hrecord, -, -⟩ := h
  rw [hr] at hhalt hfault
  have hcause : s.faultCause = .none := by simpa using hfault
  exact ⟨by simpa using hhalt, hcause, hrecord hcause⟩

theorem State.wf_raise (h : s.wf) (hr : s.ready) (p : Count) {c : FaultCause} (v : Count) (hc : c ≠ .none) :
    (s.raise p c v).wf := by
  obtain ⟨hmem, hused, hconfig, hstatus⟩ := h
  obtain ⟨hrun, hpend, hreq⟩ := hr
  obtain ⟨hhalt, -⟩ := State.status_of_running hstatus hrun
  exact ⟨hmem, hused, hconfig, by simp [State.statusWf, hhalt, hc, hpend, hreq]⟩

theorem State.wf_stop (h : s.wf) (hr : s.ready) {r : HaltReason} (hne : r ≠ .none) : (s.stop r).wf := by
  obtain ⟨hmem, hused, hconfig, hstatus⟩ := h
  obtain ⟨hrun, hpend, hreq⟩ := hr
  obtain ⟨-, hcause, hpc, hvalue⟩ := State.status_of_running hstatus hrun
  exact ⟨hmem, hused, hconfig, by simp [State.statusWf, hne, hcause, hpc, hvalue, hpend, hreq]⟩

theorem State.wf_takeCheckpoint (h : s.wf) (hr : s.runState = .running) : s.takeCheckpoint.wf := by
  obtain ⟨hmem, hused, hconfig, hstatus⟩ := h
  obtain ⟨hhalt, hcause, hpc, hvalue⟩ := State.status_of_running hstatus hr
  exact ⟨hmem, hused, hconfig, by simp [State.statusWf, hhalt, hcause, hpc, hvalue]⟩

theorem State.wf_withPendingIn (h : s.wf) (hr : s.runState = .running) (i : Option Reg) :
    { s with pendingIn := i }.wf := by
  obtain ⟨hmem, hused, hconfig, hhalt, hfault, hrecord, -, hreq⟩ := h
  exact ⟨hmem, hused, hconfig, hhalt, hfault, hrecord, fun _ => hr, hreq⟩

theorem State.wf_postInstruction (h : s.wf) (hr : s.ready) (p : Count) : (s.postInstruction p).wf := by
  rcases s.postInstruction_cases p with ⟨-, e⟩ | ⟨-, e⟩ <;> rw [e]
  · exact State.wf_raise h hr p _ (by decide)
  · exact h

end

/-! ### How a step ends: by a signal, or by taking a checkpoint -/

/-- The signals an instruction rule that began in `s` and left `u` can return (rule R109): a STOP or FAULT names its
reason, STACK_INVARIANT is raised only where `used` has reached `cap`, and only CONTINUE comes with a changed `used`,
one more at most. -/
def Signal.canFollow (s u : State) : Signal → Prop
  | .cont => u.used ≤ s.used + 1
  | .stop r => r ≠ .none ∧ u.used = s.used
  | .fault c _ => c ≠ .none ∧ (c = .stackInvariant → s.cap.toNat ≤ s.used) ∧ u.used = s.used
  | .waitInput _ => u.used = s.used

/-- `t` is what a signal makes of a well-formed state that is still RUNNING and has the capacity and the fault cause
of `s` (rule R110). -/
def State.EndsBySignal (s t : State) : Prop :=
  ∃ (u : State) (p : Count) (sig : Signal), t = u.signal p sig ∧ sig.canFollow s u ∧
    u.wf ∧ u.ready ∧ u.cap = s.cap ∧ u.faultCause = s.faultCause

section
variable {s t : State}

theorem Effect.endsBySignal {i : Instr} (he : Effect s i t) (h : s.wf) (hr : s.ready) : s.EndsBySignal t := by
  have ⟨_, hused, _⟩ := h
  cases he with
  | illFormed _ c v _ hc =>
    refine ⟨s, s.pc, .fault c v, rfl, ?_, h, hr, rfl, rfl⟩
    rcases hc with rfl | rfl <;> simp [Signal.canFollow]
  | wroteReg | emitted | advanced | jumped =>
    exact ⟨_, _, .cont, rfl, Nat.le_succ s.used, h, hr, rfl, rfl⟩
  | wroteMem a b _ ha =>
    exact ⟨_, _, .cont, rfl, Nat.le_succ s.used, State.wf_writeMem ((State.wf_advance 3).2 h) _ ha, hr, rfl, rfl⟩
  | pushed a _ _ hmax =>
    have hlen : (s.stack ++ [s.resolve a]).length = s.used + 1 := by simp [State.used]
    exact ⟨_, _, .cont, rfl, hlen.le, State.wf_withStack ((State.wf_advance 2).2 h) (hlen.trans_le hmax), hr, rfl, rfl⟩
  | called a _ _ hmax =>
    have hlen : (s.stack ++ [(s.pc + 2).setWidth 16]).length = s.used + 1 := by simp [State.used]
    exact ⟨_, _, .cont, rfl, hlen.le,
      (State.wf_jump _).2 (State.wf_withStack ((State.wf_advance 2).2 h) (hlen.trans_le hmax)), hr, rfl, rfl⟩
  | popped d l v hl =>
    have hlen : l.length ≤ s.used := by simp [State.used, hl]
    exact ⟨_, _, .cont, rfl, Nat.le_succ_of_le hlen,
      (State.wf_writeReg _ _).2 (State.wf_withStack ((State.wf_advance 2).2 h) (hlen.trans hused)), hr, rfl, rfl⟩
  | returned l v hl =>
    have hlen : l.length ≤ s.used := by simp [State.used, hl]
    exact ⟨_, _, .cont, rfl, Nat.le_succ_of_le hlen,
      (State.wf_jump _).2 (State.wf_withStack ((State.wf_advance 1).2 h) (hlen.trans hused)), hr, rfl, rfl⟩
  | stopped _ r hir =>
    refine ⟨_, s.pc, .stop r, rfl, ⟨?_, rfl⟩, h, hr, rfl, rfl⟩
    rcases hir with ⟨-, rfl⟩ | ⟨-, -, rfl⟩ <;> decide
  | waits d => exact ⟨s.advance 2, s.pc, .waitInput d, rfl, rfl, h, hr, rfl, rfl⟩
  | faulted i c v _ hc =>
    refine ⟨_, s.pc, .fault c v, rfl, ?_, h, hr, rfl, rfl⟩
    rcases hc with ⟨rfl, -⟩ | ⟨rfl, -⟩ | ⟨rfl, -⟩ | ⟨rfl, hfull, -⟩ | ⟨rfl, -⟩
    · simp [Signal.canFollow]
    · simp [Signal.canFollow]
    · simp [Signal.canFollow]
    · exact ⟨by decide, fun _ => hfull, rfl⟩
    · simp [Signal.canFollow]

/-- The causes a failed decoding raises are those of rules R105 and R106. -/
theorem decodeFault_cause (p : Count) (e : DecodeError) :
    (decodeFault p e).1 = .invalidOpcode ∨ (decodeFault p e).1 = .operandFetchOutOfBounds := by
  cases e <;> simp [decodeFault]

theorem step_ends (hstep : step s = .next t) (h : s.wf) :
    s.runState = .running ∧ (t = s.takeCheckpoint ∨ s.EndsBySignal t) := by
  obtain ⟨hrun, hcases⟩ := step_cases hstep
  refine ⟨hrun, ?_⟩
  rcases hcases with ⟨-, rfl⟩ | ⟨hreq, hpend, -, rfl⟩ | ⟨hreq, hpend, -, e, -, rfl⟩ |
    ⟨hreq, hpend, -, i, rest, -, hexec⟩ | ⟨hreq, i, b, rest, -, -, rfl⟩
  · exact .inl rfl
  · exact .inr ⟨s, s.pc, .stop .pcOutOfRange, rfl, ⟨by decide, rfl⟩, h, ⟨hrun, hpend, hreq⟩, rfl, rfl⟩
  · refine .inr ⟨s, s.pc, .fault _ _, rfl, ?_, h, ⟨hrun, hpend, hreq⟩, rfl, rfl⟩
    rcases decodeFault_cause s.pc e with hc | hc <;> simp [Signal.canFollow, hc]
  · exact .inr ((effect_of_exec hexec).endsBySignal h ⟨hrun, hpend, hreq⟩)
  · exact .inr ⟨_, s.pc - 2, .cont, rfl, Nat.le_succ s.used, State.wf_withPendingIn h hrun none,
      ⟨hrun, rfl, hreq⟩, rfl, rfl⟩

theorem State.wf_signal {u : State} {sig : Signal} (h : u.wf) (hr : u.ready) (p : Count)
    (hsig : sig.canFollow s u) : (u.signal p sig).wf := by
  cases sig with
  | cont => exact State.wf_postInstruction h hr p
  | stop r => exact State.wf_stop h hr hsig.1
  | fault c v => exact State.wf_raise h hr p v hsig.1
  | waitInput i => exact State.wf_withPendingIn h hr.1 (some i)

theorem step_keeps_wf (hstep : step s = .next t) (h : s.wf) : t.wf := by
  obtain ⟨hrun, rfl | ⟨u, p, sig, rfl, hsig, hu, hready, -⟩⟩ := step_ends hstep h
  · exact State.wf_takeCheckpoint h hrun
  · exact State.wf_signal hu hready p hsig

end

/-- Settles O51: a step takes a checkpoint or ends by a signal, and both keep a well-formed state so. -/
theorem stepKeepsWellFormedState : Obligations.StepKeepsWellFormedState := by
  unfold Obligations.StepKeepsWellFormedState
  exact fun _ _ h hstep => step_keeps_wf hstep h

/-! ### The capacity register (rules R144, R145) -/

/-- `cap` is a power of two of at least 32, and `used` is below it (rule R145). -/
def CapacityHolds (used : Nat) (cap : Count) : Prop :=
  (∃ k, 5 ≤ k ∧ k ≤ 31 ∧ cap.toNat = 2 ^ k) ∧ used < cap.toNat

/-- Rule R144 in numbers: with `used` at most 2^31 - 1 the doubling stays within 32 bits (decision D14). -/
theorem reconciledCap_toNat {used : Nat} (cap : Count) (hmax : used ≤ stackMaxBound) :
    (reconciledCap used cap).toNat =
      if used = cap.toNat then cap.toNat * 2
      else if 32 < cap.toNat ∧ used < cap.toNat / 4 then cap.toNat / 2
      else cap.toNat := by
  have hcap := cap.isLt
  rw [stackMaxBound_eq] at hmax
  unfold reconciledCap
  rw [stackInitCap_eq]
  split
  · rw [BitVec.toNat_ofNat]; omega
  · split
    · rw [BitVec.toNat_ofNat]; omega
    · rfl

theorem capacityHolds_reconciledCap {used : Nat} {cap : Count}
    (hcap : ∃ k, 5 ≤ k ∧ k ≤ 31 ∧ cap.toNat = 2 ^ k) (hle : used ≤ cap.toNat) (hmax : used ≤ stackMaxBound) :
    CapacityHolds used (reconciledCap used cap) := by
  obtain ⟨k, hk5, hk31, hk⟩ := hcap
  have hpos : 2 ^ 5 ≤ 2 ^ k := Nat.pow_le_pow_right (by decide) hk5
  rw [CapacityHolds, reconciledCap_toNat cap hmax]
  rw [stackMaxBound_eq] at hmax
  split
  · have hk' : k < 31 := (Nat.pow_lt_pow_iff_right (a := 2) (by decide)).1 (by omega)
    exact ⟨⟨k + 1, by omega, by omega, by rw [hk, pow_succ]⟩, by omega⟩
  · split
    · obtain ⟨j, rfl⟩ : ∃ j, k = j + 1 := ⟨k - 1, by omega⟩
      have hj : 5 < j + 1 := (Nat.pow_lt_pow_iff_right (a := 2) (by decide)).1 (by omega)
      exact ⟨⟨j, by omega, by omega, by rw [hk, pow_succ]; omega⟩, by omega⟩
    · exact ⟨⟨k, hk5, hk31, hk⟩, by omega⟩

/-- The reconcile keeps the capacity, and so no step finds `used` at `cap` or above, which STACK_INVARIANT needs. -/
theorem step_keeps_capacity {s t : State} (hstep : step s = .next t) (h : s.wf) (hcap : CapacityHolds s.used s.cap)
    (hinv : s.faultCause ≠ .stackInvariant) :
    CapacityHolds t.used t.cap ∧ t.faultCause ≠ .stackInvariant := by
  obtain ⟨-, rfl | ⟨u, p, sig, rfl, hsig, hu, -, hucap, hucause⟩⟩ := step_ends hstep h
  · exact ⟨hcap, hinv⟩
  have ⟨hpow, hlt⟩ := hcap
  rw [← hucap] at hpow hcap
  rw [← hucause] at hinv
  cases sig with
  | cont =>
    obtain ⟨-, humax, ⟨-, hbound⟩, -⟩ := hu
    have hle : u.used ≤ u.cap.toNat := by rw [hucap]; exact hsig.trans hlt
    rw [State.signal_cont, u.postInstruction_of_le hle]
    exact ⟨capacityHolds_reconciledCap hpow hle (humax.trans hbound), hinv⟩
  | stop r =>
    obtain ⟨-, hused⟩ := hsig
    rw [← hused] at hcap
    exact ⟨hcap, hinv⟩
  | fault c v =>
    obtain ⟨-, hfull, hused⟩ := hsig
    rw [← hused] at hcap
    exact ⟨hcap, fun hc => absurd (hfull hc) hlt.not_ge⟩
  | waitInput i =>
    have hused : u.used = s.used := hsig
    rw [← hused] at hcap
    exact ⟨hcap, hinv⟩

/-! ### Registers, `pc` and stack: what an effect does to each -/

/-- `i` is a control transfer to the operand `o`, taken in `s` (rules R190 to R193). -/
def State.transfersTo (s : State) (i : Instr) (o : Operand) : Prop :=
  i = .jmp o ∨ (∃ a, i = .jt a o ∧ s.resolve a ≠ 0) ∨ (∃ a, i = .jf a o ∧ s.resolve a = 0) ∨ i = .call o

section
variable {s t : State} {i : Instr}

theorem Effect.regs_cases (he : Effect s i t) :
    t.regs = s.regs ∨ ∃ d v, i.operands.head? = some (.dest, .reg d) ∧ t.regs = (s.writeReg d v).regs := by
  cases he with
  | wroteReg _ d v _ hd => exact .inr ⟨d, v, hd, by simp⟩
  | popped d l v => exact .inr ⟨d, v.toNat, rfl, by simp⟩
  | illFormed | wroteMem | emitted | advanced | jumped | pushed | called | returned | stopped | waits | faulted =>
    left; simp

theorem Effect.pc_cases (he : Effect s i t) :
    t.pc = s.pc ∨ t.pc = s.pc + BitVec.ofNat 32 i.length ∨
    (∃ o, o.fits .value = true ∧ s.transfersTo i o ∧ t.pc = (s.resolve o).setWidth 32) ∨
    (i = .ret ∧ ∃ v, s.stack.getLast? = some v ∧ t.pc = v.setWidth 32) := by
  cases he with
  | illFormed => exact .inl rfl
  | wroteReg | advanced => exact .inr (.inl (by simp))
  | wroteMem | emitted | pushed | popped | waits => exact .inr (.inl (by simp [Instr.length, Instr.operands]))
  | faulted => exact .inr (.inl rfl)
  | stopped _ r hi =>
    rcases hi with ⟨rfl, -⟩ | ⟨rfl, -, -⟩ <;> exact .inr (.inl rfl)
  | jumped _ o _ ho hi =>
    refine .inr (.inr (.inl ⟨o, ho, ?_, by simp⟩))
    rcases hi with hjmp | hjt | hjf
    · exact .inl hjmp
    · exact .inr (.inl hjt)
    · exact .inr (.inr (.inl hjf))
  | called a ha => exact .inr (.inr (.inl ⟨a, ha, .inr (.inr (.inr rfl)), by simp⟩))
  | returned l v hl => exact .inr (.inr (.inr ⟨rfl, v, by simp [hl], by simp⟩))

theorem Effect.stack_cases (he : Effect s i t) :
    t.stack = s.stack ∨
    (∃ a, i = .push a ∧ a.fits .value = true ∧ t.stack = s.stack ++ [s.resolve a]) ∨
    (∃ a, i = .call a ∧ t.stack = s.stack ++ [(s.pc + 2).setWidth 16]) ∨
    ((i = .ret ∨ ∃ a, i = .pop a) ∧ ∃ v, s.stack = t.stack ++ [v]) := by
  cases he with
  | pushed a ha => exact .inr (.inl ⟨a, rfl, ha, by simp⟩)
  | called a => exact .inr (.inr (.inl ⟨a, rfl, by simp⟩))
  | popped d l v hl => exact .inr (.inr (.inr ⟨.inr ⟨_, rfl⟩, v, by simpa using hl⟩))
  | returned l v hl => exact .inr (.inr (.inr ⟨.inl rfl, v, by simpa using hl⟩))
  | illFormed | wroteReg | wroteMem | emitted | advanced | jumped | stopped | waits | faulted => left; simp

/-- What a step does to registers, `pc` and stack: nothing, the register write of a completed `in`, or the effect of
the instruction at `pc`. -/
theorem step_data_cases (hstep : step s = .next t) :
    (t.regs = s.regs ∧ t.pc = s.pc ∧ t.stack = s.stack) ∨
    (∃ d v, s.pendingIn = some d ∧ t.regs = (s.writeReg d v).regs ∧ t.pc = s.pc ∧ t.stack = s.stack) ∨
    (s.pendingIn = none ∧ s.pc.toNat < 32768 ∧
      ∃ i rest, decode (s.mem.fetchWords s.pc.toNat) = .ok (i, rest) ∧ Effect s i t) := by
  obtain ⟨-, hcases⟩ := step_cases hstep
  rcases hcases with ⟨-, rfl⟩ | ⟨-, -, -, rfl⟩ | ⟨-, -, -, e, -, rfl⟩ | ⟨-, hpend, hpc, i, rest, hdec, hexec⟩ |
    ⟨-, d, b, rest, hpend, -, rfl⟩
  · exact .inl ⟨rfl, rfl, rfl⟩
  · exact .inl ⟨rfl, rfl, rfl⟩
  · exact .inl ⟨rfl, rfl, rfl⟩
  · exact .inr (.inr ⟨hpend, hpc, i, rest, hdec, effect_of_exec hexec⟩)
  · exact .inr (.inl ⟨d, b.toNat, hpend, by simp, by simp, by simp⟩)

theorem State.readReg_congr {u v : State} (h : u.regs = v.regs) (r : Reg) : u.readReg r = v.readReg r := by
  simp [State.readReg, h]

/-- A register that one write changed is the written one, and holds a 15-bit value (rules R21, R22). -/
theorem State.readReg_of_regs_eq_writeReg {d r : Reg} {v : Nat} (hregs : t.regs = (s.writeReg d v).regs)
    (hne : t.readReg r ≠ s.readReg r) : r = d ∧ (t.readReg r).toNat < 32768 := by
  rw [State.readReg_congr hregs r] at hne ⊢
  have hrd : r = d := by
    by_contra hother
    exact hne (s.readReg_writeReg_of_ne v hother)
  subst hrd
  rw [State.readReg_writeReg_self, mask15_toNat]
  exact ⟨rfl, Nat.mod_lt _ (by decide)⟩

end

/-! ### The bounds on registers, `pc` and stack entries -/

/-- Registers hold 15-bit values (rule R23), `pc` and the stack entries are at most 32768 (conflict C4). -/
structure State.DataBounded (s : State) : Prop where
  regs_lt : ∀ r : Reg, (s.readReg r).toNat < 32768
  pc_le : s.pc.toNat ≤ 32768
  entries_le : ∀ w ∈ s.stack, w.toNat ≤ 32768

theorem State.loadInv_iff (s : State) : s.loadInv ↔
    s.wf ∧ s.DataBounded ∧ CapacityHolds s.used s.cap ∧ s.faultCause ≠ .stackInvariant := by
  constructor
  · rintro ⟨hwf, hregs, hpc, hentries, hpow, hlt, hinv⟩
    exact ⟨hwf, ⟨hregs, hpc, hentries⟩, ⟨hpow, hlt⟩, hinv⟩
  · rintro ⟨hwf, ⟨hregs, hpc, hentries⟩, ⟨hpow, hlt⟩, hinv⟩
    exact ⟨hwf, hregs, hpc, hentries, hpow, hlt, hinv⟩

section
variable {s t : State} {i : Instr}

theorem State.DataBounded.resolve_lt (h : s.DataBounded) {o : Operand} (ho : o.fits .value = true) :
    (s.resolve o).toNat < 32768 := by
  cases o with
  | lit v =>
    have hv := v.isLt
    rw [State.resolve, BitVec.toNat_setWidth]; omega
  | reg r => exact h.regs_lt r
  | inv w => simp [Operand.fits] at ho

theorem State.DataBounded.readReg_lt_of_write (h : s.DataBounded) {d : Reg} {v : Nat}
    (hregs : t.regs = (s.writeReg d v).regs) (r : Reg) : (t.readReg r).toNat < 32768 := by
  by_cases hsame : t.readReg r = s.readReg r
  · rw [hsame]; exact h.regs_lt r
  · exact (State.readReg_of_regs_eq_writeReg hregs hsame).2

theorem State.DataBounded.entries_le_append (h : s.DataBounded) {v : Word} (hv : v.toNat ≤ 32768) :
    ∀ w ∈ s.stack ++ [v], w.toNat ≤ 32768 :=
  List.forall_mem_append.2 ⟨h.entries_le, List.forall_mem_singleton.2 hv⟩

theorem Effect.regs_lt (he : Effect s i t) (h : s.DataBounded) (r : Reg) : (t.readReg r).toNat < 32768 := by
  rcases he.regs_cases with hregs | ⟨d, v, -, hregs⟩
  · rw [State.readReg_congr hregs r]; exact h.regs_lt r
  · exact h.readReg_lt_of_write hregs r

theorem Effect.pc_le (he : Effect s i t) (h : s.DataBounded) (hi : s.pc.toNat + i.length ≤ 32768) :
    t.pc.toNat ≤ 32768 := by
  rcases he.pc_cases with hpc | hpc | ⟨o, ho, -, hpc⟩ | ⟨-, v, hv, hpc⟩ <;> rw [hpc]
  · exact h.pc_le
  · rw [BitVec.toNat_add, BitVec.toNat_ofNat]; omega
  · have htarget := h.resolve_lt ho
    rw [BitVec.toNat_setWidth]; omega
  · have htop := h.entries_le v (List.mem_of_getLast? hv)
    rw [BitVec.toNat_setWidth]; omega

theorem Effect.entries_le (he : Effect s i t) (h : s.DataBounded) (hi : s.pc.toNat + i.length ≤ 32768) :
    ∀ w ∈ t.stack, w.toNat ≤ 32768 := by
  rcases he.stack_cases with hstack | ⟨a, -, ha, hstack⟩ | ⟨a, rfl, hstack⟩ | ⟨-, v, hstack⟩
  · rw [hstack]; exact h.entries_le
  · rw [hstack]; exact h.entries_le_append (h.resolve_lt ha).le
  · have hnext : s.pc.toNat + 2 ≤ 32768 := hi
    have htwo : (2 : Count).toNat = 2 := rfl
    rw [hstack]
    exact h.entries_le_append (by rw [BitVec.toNat_setWidth, BitVec.toNat_add, htwo]; omega)
  · exact fun w hw => h.entries_le w (by simp [hstack, hw])

theorem step_keeps_dataBounded (hstep : step s = .next t) (h : s.DataBounded) : t.DataBounded := by
  rcases step_data_cases hstep with ⟨hregs, hpc, hstack⟩ | ⟨d, v, -, hregs, hpc, hstack⟩ |
    ⟨-, hlt, i, rest, hdec, he⟩
  · exact ⟨fun r => State.readReg_congr hregs r ▸ h.regs_lt r, hpc ▸ h.pc_le, hstack ▸ h.entries_le⟩
  · exact ⟨h.readReg_lt_of_write hregs, hpc ▸ h.pc_le, hstack ▸ h.entries_le⟩
  · have hi := Memory.length_le_of_decode hlt hdec
    exact ⟨he.regs_lt h, he.pc_le h hi, he.entries_le h hi⟩

end

/-- Settles O52: the four parts of the invariant, each kept by a step. -/
theorem stepKeepsLoadInvariants : Obligations.StepKeepsLoadInvariants := by
  unfold Obligations.StepKeepsLoadInvariants
  intro s t h hstep
  obtain ⟨hwf, hdata, hcap, hinv⟩ := s.loadInv_iff.1 h
  exact t.loadInv_iff.2
    ⟨step_keeps_wf hstep hwf, step_keeps_dataBounded hstep hdata, step_keeps_capacity hstep hwf hcap hinv⟩

/-! ### Memory as its cells (rule R36) -/

theorem readCells_of_mem {a : Nat} {v : Word} {l : List (Nat × Word)}
    (hs : l.Pairwise fun c d => c.1 < d.1) (h : (a, v) ∈ l) : readCells a l = v := by
  induction l with
  | nil => cases h
  | cons c l ih =>
    rw [List.pairwise_cons] at hs
    rcases List.mem_cons.1 h with rfl | h
    · simp [readCells]
    · have hne : a ≠ c.1 := (hs.1 _ h).ne'
      simpa [readCells, hne] using ih hs.2 h

theorem mem_of_readCells_ne_zero {a : Nat} {l : List (Nat × Word)} (h : readCells a l ≠ 0) :
    (a, readCells a l) ∈ l := by
  induction l with
  | nil => exact absurd rfl h
  | cons c l ih =>
    by_cases hac : a = c.1
    · simp [readCells, hac]
    · simp only [readCells, if_neg hac] at h ⊢
      exact List.mem_cons_of_mem _ (ih h)

/-- The cells a canonical memory lists are those that do not read as 0. -/
theorem Memory.mem_cells_iff {m : Memory} (h : m.wf) (a : Nat) (v : Word) :
    (a, v) ∈ m.cells ↔ a < 32768 ∧ m.read a = v ∧ v ≠ 0 := by
  obtain ⟨hsorted, hcells⟩ := h
  constructor
  · intro hm
    obtain ⟨ha, hv⟩ := hcells _ hm
    exact ⟨by simpa using ha, readCells_of_mem hsorted hm, hv⟩
  · rintro ⟨-, rfl, hv⟩
    exact mem_of_readCells_ne_zero hv

/-- Rising addresses fix the order of the cells. -/
theorem cells_eq_of_mem_iff {l l' : List (Nat × Word)} (hs : l.Pairwise fun c d => c.1 < d.1)
    (hs' : l'.Pairwise fun c d => c.1 < d.1) (h : ∀ c, c ∈ l ↔ c ∈ l') : l = l' := by
  have nodup : ∀ {k : List (Nat × Word)}, k.Pairwise (fun c d => c.1 < d.1) → k.Nodup :=
    fun hk => hk.imp fun hlt he => hlt.ne (congrArg Prod.fst he)
  have hperm : l.Perm l' := (List.perm_ext_iff_of_nodup (nodup hs) (nodup hs')).2 h
  exact hperm.eq_of_pairwise (fun _ _ _ _ hcd hdc => absurd hcd hdc.not_gt) hs hs'

/-- Settles O50: both memories list the same cells, in the same order. -/
theorem canonicalMemoryIsItsCells : Obligations.CanonicalMemoryIsItsCells := by
  unfold Obligations.CanonicalMemoryIsItsCells
  intro m m' hm hm' hread
  have hmem : ∀ c, c ∈ m.cells ↔ c ∈ m'.cells := by
    rintro ⟨a, v⟩
    rw [Memory.mem_cells_iff hm, Memory.mem_cells_iff hm']
    exact and_congr_right fun ha => by rw [hread a ha]
  exact congrArg Memory.mk (cells_eq_of_mem_iff hm.1 hm'.1 hmem)

/-! ### What a step may change (rules R21, R25, R27) -/

theorem exists_dest_iff_opcode (i : Instr) :
    (∃ o, (Role.dest, o) ∈ i.operands) ↔ i.opcode.toNat ∈ [1, 3, 4, 5, 9, 10, 11, 12, 13, 14, 15, 20] := by
  cases i <;> simp [Instr.operands, Instr.opcode]

/-- Settles O55: a completed `in` and the effect of the instruction at `pc` each write one register at most. -/
theorem onlyDestinationsAreWritten : Obligations.OnlyDestinationsAreWritten := by
  unfold Obligations.OnlyDestinationsAreWritten
  refine ⟨fun s t r hstep hne => ?_, exists_dest_iff_opcode⟩
  rcases step_data_cases hstep with ⟨hregs, -⟩ | ⟨d, v, hpend, hregs, -⟩ | ⟨hpend, -, i, rest, hdec, he⟩
  · exact absurd (State.readReg_congr hregs r) hne
  · obtain ⟨rfl, hlt⟩ := State.readReg_of_regs_eq_writeReg hregs hne
    exact ⟨hlt, .inl hpend⟩
  · rcases he.regs_cases with hregs | ⟨d, v, hd, hregs⟩
    · exact absurd (State.readReg_congr hregs r) hne
    · obtain ⟨rfl, hlt⟩ := State.readReg_of_regs_eq_writeReg hregs hne
      exact ⟨hlt, .inr ⟨hpend, i, rest, hdec, hd⟩⟩

/-- Settles O56: the cases of `Effect.pc_cases`, a transfer split by its instruction. -/
theorem pcAdvancesOrTransfers : Obligations.PcAdvancesOrTransfers := by
  unfold Obligations.PcAdvancesOrTransfers
  intro s t hstep
  rcases step_data_cases hstep with ⟨-, hpc, -⟩ | ⟨d, v, -, -, hpc, -⟩ | ⟨-, -, i, rest, hdec, he⟩
  · exact .inl hpc
  · exact .inl hpc
  · rcases he.pc_cases with hpc | hpc | ⟨o, -, htransfer, hpc⟩ | hret
    · exact .inl hpc
    · exact .inr ⟨i, rest, hdec, .inl hpc⟩
    · refine .inr ⟨i, rest, hdec, .inr ?_⟩
      rcases htransfer with hjmp | ⟨a, hjt, hcond⟩ | ⟨a, hjf, hcond⟩ | hcall
      · exact .inl ⟨o, hjmp, hpc⟩
      · exact .inr (.inl ⟨a, o, hjt, hcond, hpc⟩)
      · exact .inr (.inr (.inl ⟨a, o, hjf, hcond, hpc⟩))
      · exact .inr (.inr (.inr (.inl ⟨o, hcall, hpc⟩)))
    · exact .inr ⟨i, rest, hdec, .inr (.inr (.inr (.inr (.inr hret))))⟩

/-- Settles O57: the cases of `Effect.stack_cases`. -/
theorem onlyFourInstructionsUseStack : Obligations.OnlyFourInstructionsUseStack := by
  unfold Obligations.OnlyFourInstructionsUseStack
  intro s t hstep hne
  rcases step_data_cases hstep with ⟨-, -, hstack⟩ | ⟨d, v, -, -, -, hstack⟩ | ⟨-, -, i, rest, hdec, he⟩
  · exact absurd hstack hne
  · exact absurd hstack hne
  · refine ⟨i, rest, hdec, ?_⟩
    rcases he.stack_cases with hstack | ⟨a, hpush, -, hstack⟩ | hcall | hpop
    · exact absurd hstack hne
    · exact .inl ⟨a, hpush, hstack⟩
    · exact .inr (.inl hcall)
    · exact .inr (.inr hpop)

/-! ### The status outputs (rules R31, R32, R66, R231) -/

theorem RunState.code_inj {a b : RunState} : a.code = b.code ↔ a = b := by
  cases a <;> cases b <;> decide

theorem HaltReason.code_inj {a b : HaltReason} : a.code = b.code ↔ a = b := by
  cases a <;> cases b <;> decide

theorem FaultCause.code_inj {a b : FaultCause} : a.code = b.code ↔ a = b := by
  cases a <;> cases b <;> decide

theorem State.statusOutputs_eq_iff (s t : State) : s.statusOutputs = t.statusOutputs ↔ SameStatus s t := by
  simp only [State.statusOutputs, StatusOutputs.mk.injEq, RunState.code_inj, HaltReason.code_inj,
    FaultCause.code_inj, SameStatus, eq_comm]

/-- Settles O40: the codes by their tables, and the outputs by the injectivity of each code. -/
theorem statusOutputsTellOutcomesApart : Obligations.StatusOutputsTellOutcomesApart := by
  unfold Obligations.StatusOutputsTellOutcomesApart
  exact ⟨by decide, by decide, by decide, fun _ => rfl, State.statusOutputs_eq_iff⟩

end Sys2Proof.Machine

/-! ## Proofs about memory and files (20_memory.md): words as bytes, the two file formats, what the host's acts keep,
and the input port -/

namespace Sys2Proof.Machine

/-! ### Reading back the bytes of words and counts (rules R52, R68) -/

/-- A word is its high byte before its low byte. -/
theorem highByte_append_lowByte (w : Word) : w.extractLsb' 8 8 ++ w.extractLsb' 0 8 = w := by
  rw [BitVec.extractLsb'_append_extractLsb'_eq_extractLsb' (show 8 = 0 + 8 from rfl)]
  exact BitVec.extractLsb'_eq_self

/-- A 32-bit integer is its four bytes, the last of the file first. -/
theorem fourBytes_append (c : Count) :
    c.extractLsb' 24 8 ++ c.extractLsb' 16 8 ++ c.extractLsb' 8 8 ++ c.extractLsb' 0 8 = c := by
  rw [BitVec.extractLsb'_append_extractLsb'_eq_extractLsb' (show 24 = 16 + 8 from rfl),
    BitVec.extractLsb'_append_extractLsb'_eq_extractLsb' (show 16 = 8 + 8 from rfl),
    BitVec.extractLsb'_append_extractLsb'_eq_extractLsb' (show 8 = 0 + 8 from rfl)]
  exact BitVec.extractLsb'_eq_self

theorem length_flatMap_wordBytes (ws : List Word) : (ws.flatMap wordBytes).length = 2 * ws.length := by
  simp [List.length_flatMap, wordBytes, Nat.mul_comm]

theorem takeWords_flatMap_wordBytes {n : Nat} {ws : List Word} (h : ws.length = n) (rest : List Byte) :
    takeWords n (ws.flatMap wordBytes ++ rest) = some (ws, rest) := by
  subst h
  induction ws with
  | nil => rfl
  | cons w ws ih =>
    simp only [List.flatMap_cons, wordBytes, List.cons_append, List.nil_append, List.length_cons] at ih ⊢
    rw [takeWords, ih, highByte_append_lowByte]

theorem takeCount_countBytes (c : Count) (rest : List Byte) : takeCount (countBytes c ++ rest) = some (c, rest) := by
  simp only [countBytes, List.cons_append, takeCount, fourBytes_append, List.nil_append]

theorem wordsOfBytes_flatMap_wordBytes (ws : List Word) : wordsOfBytes (ws.flatMap wordBytes) = some ws := by
  induction ws with
  | nil => rfl
  | cons w ws ih =>
    simp only [List.flatMap_cons, wordBytes, List.cons_append, List.nil_append] at ih ⊢
    rw [wordsOfBytes, ih, highByte_append_lowByte]

/-! ### Checkpoint files (rule R68) -/

/-- The 32768 words of a canonical memory are that memory (rule R36). -/
theorem Memory.ofWords_map_read {m : Memory} (h : m.wf) :
    Memory.ofWords ((List.range memWords).map m.read) = m := by
  refine canonicalMemoryIsItsCells _ m (Memory.ofWords_wf _ (by simp)) h fun a ha => ?_
  rw [Memory.read_ofWords]
  simp [ha]

theorem regs_ofFn_toList (v : Vector Word 8) : (Vector.ofFn fun i : Reg => v.toList.getD i.val 0) = v := by
  ext i
  simp

/-- Settles O46: each field is read back in turn, and the words of memory and registers give back both. -/
theorem checkpointFileRoundTrip : Obligations.CheckpointFileRoundTrip := by
  unfold Obligations.CheckpointFileRoundTrip
  intro img hmem hused
  have hcount : (BitVec.ofNat 32 img.stack.length).toNat = img.stack.length := Nat.mod_eq_of_lt hused
  have hmemory : ((List.range memWords).map img.mem.read).length = memWords := by
    rw [List.length_map, List.length_range]
  have hpc := takeCount_countBytes img.pc []
  rw [List.append_nil] at hpc
  simp only [imageOfFile, checkpointFile, List.append_assoc, takeWords_flatMap_wordBytes hmemory,
    takeWords_flatMap_wordBytes img.regs.length_toList, takeCount_countBytes,
    takeWords_flatMap_wordBytes hcount.symm, hpc, Option.bind_eq_bind, Option.bind_some,
    Memory.ofWords_map_read hmem, regs_ofFn_toList]

/-- Settles O45: the sizes of the six fields. -/
theorem checkpointFileSize : Obligations.CheckpointFileSize := by
  unfold Obligations.CheckpointFileSize
  intro img
  simp only [checkpointFile, List.length_append, length_flatMap_wordBytes, List.length_map, List.length_range,
    memWords_eq, Vector.length_toList, countBytes, List.length_cons, List.length_nil]
  omega

/-! ### Program files (rules R52, R273) -/

/-- Settles O47: the words are read back, and they are few enough not to be refused. -/
theorem programFileIsLittleEndian : Obligations.ProgramFileIsLittleEndian := by
  unfold Obligations.ProgramFileIsLittleEndian
  intro ws hlen
  have hwords : wordsOfBytes (ws.flatMap fun w => [w.extractLsb' 0 8, w.extractLsb' 8 8]) = some ws :=
    wordsOfBytes_flatMap_wordBytes ws
  simp [programOfFile, hwords, hlen]

/-! ### Memory writes (rules R54, R58) -/

/-- Settles O49: the laws of `Memory.write`. -/
theorem memoryReadAfterWrite : Obligations.MemoryReadAfterWrite := by
  unfold Obligations.MemoryReadAfterWrite
  intro m a w hm ha
  exact ⟨m.write_wf w hm (by simpa using ha), m.read_write_self a w hm, fun b hb => m.read_write_of_ne w hb⟩

/-! ### What the host does between steps (rules R64, R67, R239, R270, R271) -/

section
variable {s t : State}

theorem State.programLoad_eq_some {ws : List Word} : s.programLoad ws = some t ↔
    s.runState ≠ .running ∧ ws.length ≤ memWords ∧ s.programLoaded ws = t := by
  simp only [State.programLoad, Option.ite_none_left_eq_some, Nat.not_lt, Option.some.injEq, ne_eq]

theorem State.restore_eq_some {img : StateImage} : s.restore img = some t ↔
    s.runState ≠ .running ∧ img.stack.length ≤ s.config.stackMax ∧ s.restored img = t := by
  simp only [State.restore, Option.ite_none_left_eq_some, Nat.not_lt, Option.some.injEq, ne_eq]

@[simp] theorem State.wf_offerByte (b : Byte) : (s.offerByte b).wf ↔ s.wf := Iff.rfl

theorem State.wf_requestCheckpoint (h : s.wf) : s.requestCheckpoint.wf := by
  unfold State.requestCheckpoint
  split
  · obtain ⟨hmem, hused, hconfig, hhalt, hfault, hrecord, hpend, -⟩ := h
    exact ⟨hmem, hused, hconfig, hhalt, hfault, hrecord, hpend, fun _ => ‹_›⟩
  · exact h

/-- A load clears the status (rule R270), and any block that fits is a memory in canonical form. -/
theorem State.wf_programLoaded (h : s.config.wf) {ws : List Word} (hws : ws.length ≤ memWords) :
    (s.programLoaded ws).wf :=
  ⟨Memory.ofWords_wf ws hws, Nat.zero_le _, h, by simp [State.statusWf, State.programLoaded]⟩

/-- A restore clears the status (rule R271), and takes memory and stack as they are. -/
theorem State.wf_restored (h : s.config.wf) {img : StateImage} (hmem : img.mem.wf)
    (hused : img.stack.length ≤ s.config.stackMax) : (s.restored img).wf :=
  ⟨hmem, hused, h, by simp [State.statusWf, State.restored]⟩

end

/-- Settles O54: one act of the host at a time. -/
theorem hostActsKeepWellFormedState : Obligations.HostActsKeepWellFormedState := by
  unfold Obligations.HostActsKeepWellFormedState
  intro s t e hne he h happly
  have ⟨_, _, hconfig, _⟩ := h
  cases e with
  | step => exact absurd rfl hne
  | offer b =>
    cases happly
    exact (State.wf_offerByte b).2 h
  | request =>
    cases happly
    exact State.wf_requestCheckpoint h
  | load ws =>
    obtain ⟨-, hws, rfl⟩ := State.programLoad_eq_some.1 happly
    exact State.wf_programLoaded hconfig hws
  | restore img =>
    obtain ⟨-, hused, rfl⟩ := State.restore_eq_some.1 happly
    exact State.wf_restored hconfig he hused
  | start =>
    cases happly
    exact h

/-! ### The offered bytes (rules R64, R101): every operation an instruction is made of leaves them unread -/

/-- The state with other bytes offered. -/
def State.withInput (s : State) (bytes : List Byte) : State := { s with input := bytes }

section
variable {s t : State} {bytes : List Byte}

@[simp] theorem State.withInput_pc : (s.withInput bytes).pc = s.pc := rfl
@[simp] theorem State.withInput_stack : (s.withInput bytes).stack = s.stack := rfl
@[simp] theorem State.withInput_mem : (s.withInput bytes).mem = s.mem := rfl
@[simp] theorem State.withInput_ckptReq : (s.withInput bytes).ckptReq = s.ckptReq := rfl

@[simp] theorem State.raise_withInput (p : Count) (c : FaultCause) (v : Count) :
    (s.withInput bytes).raise p c v = (s.raise p c v).withInput bytes := rfl
@[simp] theorem State.stop_withInput (r : HaltReason) :
    (s.withInput bytes).stop r = (s.stop r).withInput bytes := rfl
@[simp] theorem State.takeCheckpoint_withInput :
    (s.withInput bytes).takeCheckpoint = s.takeCheckpoint.withInput bytes := rfl

theorem State.postInstruction_withInput (p : Count) :
    (s.withInput bytes).postInstruction p = (s.postInstruction p).withInput bytes := by
  rcases s.postInstruction_cases p with ⟨hlt, e⟩ | ⟨hle, e⟩ <;> rw [e]
  · exact State.postInstruction_of_lt _ hlt
  · exact State.postInstruction_of_le _ hle

theorem State.signal_withInput (p : Count) (sig : Signal) :
    (s.withInput bytes).signal p sig = (s.signal p sig).withInput bytes := by
  cases sig with
  | cont => exact State.postInstruction_withInput p
  | stop r => exact State.stop_withInput r
  | fault c v => exact State.raise_withInput p c v
  | waitInput i => rfl

theorem State.withDest_withInput {k k' : Reg → State} (h : ∀ d, k' d = (k d).withInput bytes) (o : Operand) :
    (s.withInput bytes).withDest o k' = (s.withDest o k).withInput bytes := by
  cases o with
  | lit v => rfl
  | reg i => exact h i
  | inv w => rfl

theorem State.withValue_withInput {k k' : Word → State} (h : ∀ v, k' v = (k v).withInput bytes) (o : Operand) :
    (s.withInput bytes).withValue o k' = (s.withValue o k).withInput bytes := by
  cases o with
  | lit v => exact h _
  | reg i => exact h _
  | inv w => rfl

/-- A body of the execute phase that neither reads nor changes the offered bytes. -/
def LeavesInput (bytes : List Byte) (body : State → State × Signal) : Prop :=
  ∀ u : State, body (u.withInput bytes) = ((body u).1.withInput bytes, (body u).2)

theorem State.execute_withInput {body : State → State × Signal} (h : LeavesInput bytes body) (n : Nat) :
    (s.withInput bytes).execute n body = (s.execute n body).withInput bytes := by
  rw [State.execute_eq, State.execute_eq, ← State.signal_withInput]
  exact congrArg (fun r : State × Signal => r.1.signal s.pc r.2) (h (s.advance n))

theorem LeavesInput.ite {c : Prop} [Decidable c] {f g : State → State × Signal} (hf : LeavesInput bytes f)
    (hg : LeavesInput bytes g) : LeavesInput bytes fun u => if c then f u else g u := by
  intro u
  by_cases hc : c
  · simpa only [if_pos hc] using hf u
  · simpa only [if_neg hc] using hg u

theorem State.stackPush_withInput (v : Word) :
    (s.withInput bytes).stackPush v = (s.stackPush v).map (·.withInput bytes) := by
  rcases s.stackPush_cases v with ⟨hcap, e⟩ | ⟨hcap, hmax, e⟩ | ⟨hcap, hmax, e⟩ <;> rw [e]
  · exact if_pos hcap
  · exact (if_neg hcap.not_ge).trans (if_pos hmax)
  · exact (s.withInput bytes).stackPush_ok hcap hmax

theorem State.stackPop_withInput :
    (s.withInput bytes).stackPop = s.stackPop.map fun r => (r.1, r.2.withInput bytes) := by
  simp only [State.stackPop, State.withInput_stack]
  cases s.stack.getLast? <;> rfl

theorem State.aluBinary_withInput (f : AluFn) (a b c : Operand) :
    (s.withInput bytes).aluBinary f a b c = (s.aluBinary f a b c).withInput bytes :=
  State.withDest_withInput (fun _ => State.withValue_withInput (fun _ => State.withValue_withInput
    (fun _ => State.execute_withInput (fun _ => rfl) 4) c) b) a

/-- An instruction has its effect whatever bytes are offered, and consumes none of them: the operand check and the
execute phase let the offered bytes through, and so it remains that each body does (`LeavesInput`). -/
theorem exec_withInput (i : Instr) (s : State) (bytes : List Byte) :
    ∃ t, exec i s = .next t ∧ exec i (s.withInput bytes) = .next (t.withInput bytes) := by
  cases i with
  | halt | noop => exact ⟨_, rfl, congrArg _ (State.execute_withInput (fun _ => rfl) _)⟩
  | eq a b c | gt a b c | add a b c | mult a b c | and a b c | or a b c =>
    exact ⟨_, rfl, congrArg _ (State.aluBinary_withInput _ a b c)⟩
  | mod a b c =>
    exact ⟨_, rfl, congrArg _ (State.withDest_withInput (fun d => State.withValue_withInput (fun x =>
      State.withValue_withInput (fun y => State.execute_withInput (.ite (fun _ => rfl) fun _ => rfl) _) c) b) a)⟩
  | set a b | not a b =>
    exact ⟨_, rfl, congrArg _ (State.withDest_withInput (fun d => State.withValue_withInput (fun x =>
      State.execute_withInput (fun _ => rfl) _) b) a)⟩
  | rmem a b =>
    exact ⟨_, rfl, congrArg _ (State.withDest_withInput (fun d => State.withValue_withInput (fun x =>
      State.execute_withInput (.ite (fun _ => rfl) fun _ => rfl) _) b) a)⟩
  | wmem a b =>
    exact ⟨_, rfl, congrArg _ (State.withValue_withInput (fun x => State.withValue_withInput (fun y =>
      State.execute_withInput (.ite (fun _ => rfl) fun _ => rfl) _) b) a)⟩
  | jt a b | jf a b =>
    refine ⟨_, rfl, congrArg _ (State.withValue_withInput (fun x => State.withValue_withInput (fun y =>
      State.execute_withInput (fun u => ?_) _) b) a)⟩
    split <;> rfl
  | jmp a | out a =>
    exact ⟨_, rfl, congrArg _ (State.withValue_withInput (fun x => State.execute_withInput (fun _ => rfl) _) a)⟩
  | in_ a =>
    exact ⟨_, rfl, congrArg _ (State.withDest_withInput (fun x => State.execute_withInput (fun _ => rfl) _) a)⟩
  | push a | call a =>
    refine ⟨_, rfl, congrArg _ (State.withValue_withInput (fun x => State.execute_withInput (fun u => ?_) _) a)⟩
    simp only [State.stackPush_withInput, State.withInput_pc]
    generalize State.stackPush u _ = r
    cases r <;> rfl
  | pop a =>
    refine ⟨_, rfl, congrArg _ (State.withDest_withInput (fun x => State.execute_withInput (fun u => ?_) _) a)⟩
    simp only [State.stackPop_withInput]
    cases u.stackPop <;> rfl
  | ret =>
    refine ⟨_, rfl, congrArg _ (State.execute_withInput (fun u => ?_) _)⟩
    simp only [State.stackPop_withInput]
    cases u.stackPop <;> rfl

theorem State.fetch_withInput : (s.withInput bytes).fetch = s.fetch.mapError (·.withInput bytes) := by
  rcases s.fetch_cases with ⟨hreq, e⟩ | ⟨hreq, hpc, e⟩ | ⟨hreq, hpc, ⟨i, rest, hdec, e⟩ | ⟨err, hdec, e⟩⟩ <;> rw [e]
  · simp [State.fetch, hreq, Except.mapError]
  · simp [State.fetch, hreq, hpc, Except.mapError]
  · simp [State.fetch, hreq, hpc.not_ge, hdec, Except.mapError]
  · simp [State.fetch, hreq, hpc.not_ge, hdec, Except.mapError]

theorem instructionStep_withInput (h : instructionStep s = .next t) :
    instructionStep (s.withInput bytes) = .next (t.withInput bytes) := by
  unfold instructionStep at h ⊢
  rw [State.fetch_withInput]
  cases hf : s.fetch with
  | error u =>
    rw [hf] at h
    cases h
    rfl
  | ok i =>
    rw [hf] at h
    obtain ⟨u, hu, hbytes⟩ := exec_withInput i s bytes
    cases hu.symm.trans h
    exact hbytes

theorem step_eq_instructionStep (hr : s.runState = .running) (hp : s.pendingIn = none) :
    step s = instructionStep s := by
  unfold step
  rw [hr, hp]

end

/-- Settles O60: with no `in` waiting a step is the instruction step, and none of its parts reads the offered
bytes. -/
theorem offeredBytesHaveNoEffectBeforeIn : Obligations.OfferedBytesHaveNoEffectBeforeIn := by
  unfold Obligations.OfferedBytesHaveNoEffectBeforeIn
  intro s t bytes hp hstep
  obtain ⟨hr, -⟩ := step_cases hstep
  rw [step_eq_instructionStep hr hp] at hstep
  exact (step_eq_instructionStep (s := s.withInput bytes) hr hp).trans (instructionStep_withInput hstep)

end Sys2Proof.Machine

/-! ## Proofs about the encoding (30_encoding.md): the decoder and the encoder undo each other, the classes of opcode
and operand words, and the step at an encoded instruction -/

namespace Sys2Proof

open Machine

/-! ### Decoding an encoding (rules R80, R83, R89) -/

section
variable {a b c : Operand} {p q r : Role} (rest : List Word)

theorem decodeF1_toWord {mk : Operand → Instr} (ha : a.fits p = true) :
    decodeF1 mk (a.toWord :: rest) = .ok (mk a, rest) := by
  rw [decodeF1, Operand.ofWord_toWord ha]

theorem decodeF2_toWord {mk : Operand → Operand → Instr} (h : a.fits p = true ∧ b.fits q = true) :
    decodeF2 mk (a.toWord :: b.toWord :: rest) = .ok (mk a b, rest) := by
  obtain ⟨ha, hb⟩ := h
  rw [decodeF2, Operand.ofWord_toWord ha, Operand.ofWord_toWord hb]

theorem decodeF3_toWord {mk : Operand → Operand → Operand → Instr}
    (h : a.fits p = true ∧ b.fits q = true ∧ c.fits r = true) :
    decodeF3 mk (a.toWord :: b.toWord :: c.toWord :: rest) = .ok (mk a b c, rest) := by
  obtain ⟨ha, hb, hc⟩ := h
  rw [decodeF3, Operand.ofWord_toWord ha, Operand.ofWord_toWord hb, Operand.ofWord_toWord hc]

/-- The opcode word selects the instruction's own format, which reads its operands back. -/
theorem decode_encode {i : Instr} (h : i.wellFormed = true) : decode (encode i ++ rest) = .ok (i, rest) := by
  cases i with
  | halt | ret | noop => rfl
  | push a | pop a | jmp a | call a | out a | in_ a => exact decodeF1_toWord rest (fits_of_wf1 rfl h)
  | set a b | jt a b | jf a b | not a b | rmem a b | wmem a b =>
    exact decodeF2_toWord rest (fits_of_wf2 rfl h)
  | eq a b c | gt a b c | add a b c | mult a b c | mod a b c | and a b c | or a b c =>
    exact decodeF3_toWord rest (fits_of_wf3 rfl h)

end

/-- Settles O1: one format lemma for each instruction. -/
theorem decodeOfEncodeIsTheInstruction : Obligations.DecodeOfEncodeIsTheInstruction := by
  unfold Obligations.DecodeOfEncodeIsTheInstruction
  exact fun _ rest h => decode_encode rest h

/-! ### What the opcode map makes of an opcode word (rules R81, R82, R89) -/

/-- `r` is what an opcode word gives with the words after it: a rejection of 22 or more, an instruction without
operands, or one of the formats, for an instruction whose encoding begins with that opcode word. -/
inductive DecodesTo (op : Word) (ws : List Word) : Except DecodeError (Instr × List Word) → Prop
  | invalid (h : 22 ≤ op.toNat) : DecodesTo op ws (.error (.invalidOpcode op))
  | noOperand (i : Instr) (h : encode i = [op]) : DecodesTo op ws (.ok (i, ws))
  | formatF1 (mk : Operand → Instr) (h : ∀ a, encode (mk a) = [op, a.toWord]) : DecodesTo op ws (decodeF1 mk ws)
  | formatF2 (mk : Operand → Operand → Instr) (h : ∀ a b, encode (mk a b) = [op, a.toWord, b.toWord]) :
    DecodesTo op ws (decodeF2 mk ws)
  | formatF3 (mk : Operand → Operand → Operand → Instr)
    (h : ∀ a b c, encode (mk a b c) = [op, a.toWord, b.toWord, c.toWord]) : DecodesTo op ws (decodeF3 mk ws)

/-- An encoding begins with the opcode word that has the instruction's number. -/
theorem encode_eq_cons {op : Word} {i : Instr} (h : op.toNat = i.opcode.toNat) :
    encode i = op :: i.operands.map fun o => o.2.toWord := by
  rw [encode, BitVec.eq_of_toNat_eq h]

/-- The decoder follows the opcode map: the one case split over all its rows. -/
theorem decode_decodesTo (op : Word) (ws : List Word) : DecodesTo op ws (decode (op :: ws)) := by
  simp only [decode]
  split
  case h_1 hop | h_19 hop | h_22 hop => exact .noOperand _ (encode_eq_cons hop)
  case h_3 hop | h_4 hop | h_7 hop | h_18 hop | h_20 hop | h_21 hop =>
    exact .formatF1 _ fun _ => encode_eq_cons hop
  case h_2 hop | h_8 hop | h_9 hop | h_15 hop | h_16 hop | h_17 hop =>
    exact .formatF2 _ fun _ _ => encode_eq_cons hop
  case h_5 hop | h_6 hop | h_10 hop | h_11 hop | h_12 hop | h_13 hop | h_14 hop =>
    exact .formatF3 _ fun _ _ _ => encode_eq_cons hop
  case h_23 =>
    refine .invalid ?_
    simp only [imp_false] at *
    omega

/-! ### Encoding a decoded instruction (rules R80, R92) -/

section
variable {op : Word} {ws rest : List Word} {i : Instr}

/-- Every row of the opcode map gives back its opcode word, and every format its operand words. -/
theorem encode_of_decode (h : decode (op :: ws) = .ok (i, rest)) : encode i ++ rest = op :: ws := by
  have hrow := decode_decodesTo op ws
  generalize decode (op :: ws) = r at h hrow
  cases hrow with
  | invalid => cases h
  | noOperand j henc =>
    cases h
    simp only [henc, List.cons_append, List.nil_append]
  | formatF1 mk henc =>
    obtain ⟨a, rfl, rfl⟩ := decodeF1_ok h
    simp only [henc, Operand.toWord_ofWord, List.cons_append, List.nil_append]
  | formatF2 mk henc =>
    obtain ⟨a, b, rfl, rfl⟩ := decodeF2_ok h
    simp only [henc, Operand.toWord_ofWord, List.cons_append, List.nil_append]
  | formatF3 mk henc =>
    obtain ⟨a, b, c, rfl, rfl⟩ := decodeF3_ok h
    simp only [henc, Operand.toWord_ofWord, List.cons_append, List.nil_append]

/-- The words decoded begin with the instruction's opcode word. -/
theorem opcode_of_decode (h : decode (op :: ws) = .ok (i, rest)) : i.opcode = op :=
  (List.cons.inj (encode_of_decode h)).1

end

/-- Settles O2: the words are the encoding, whose opcode word gives the operand count. -/
theorem encodeOfDecodeIsTheWords : Obligations.EncodeOfDecodeIsTheWords := by
  unfold Obligations.EncodeOfDecodeIsTheWords
  intro op ws rest i h
  refine ⟨encode_of_decode h, ?_, encode_length i, i.operands_length_le⟩
  rw [← opcode_of_decode h]
  exact argc_opcode i

/-! ### Opcode words (rules R82, R105), and the opcode map row by row (rules R81, R84, R89) -/

section
variable {op : Word} {ws : List Word} {e : DecodeError}

/-- Format F1 fails by a missing operand word only (rule R106). -/
theorem decodeF1_error {mk : Operand → Instr} (h : decodeF1 mk ws = .error e) : ∃ k, e = .missingOperand k := by
  match ws, h with
  | [], rfl => exact ⟨1, rfl⟩

/-- Format F2 fails by a missing operand word only (rule R106). -/
theorem decodeF2_error {mk : Operand → Operand → Instr} (h : decodeF2 mk ws = .error e) :
    ∃ k, e = .missingOperand k := by
  match ws, h with
  | [], rfl => exact ⟨1, rfl⟩
  | [_], rfl => exact ⟨2, rfl⟩

/-- Format F3 fails by a missing operand word only (rule R106). -/
theorem decodeF3_error {mk : Operand → Operand → Operand → Instr} (h : decodeF3 mk ws = .error e) :
    ∃ k, e = .missingOperand k := by
  match ws, h with
  | [], rfl => exact ⟨1, rfl⟩
  | [_], rfl => exact ⟨2, rfl⟩
  | [_, _], rfl => exact ⟨3, rfl⟩

theorem decode_invalidOpcode (h : 22 ≤ op.toNat) : decode (op :: ws) = .error (.invalidOpcode op) := by
  simp only [decode]
  split
  case h_23 => rfl
  all_goals omega

/-- A valid opcode word is never named as the reason. -/
theorem decode_eq_invalidOpcode_iff : decode (op :: ws) = .error (.invalidOpcode op) ↔ 22 ≤ op.toNat := by
  refine ⟨fun h => ?_, decode_invalidOpcode⟩
  have hrow := decode_decodesTo op ws
  generalize decode (op :: ws) = r at h hrow
  cases hrow with
  | invalid hop => exact hop
  | noOperand => cases h
  | formatF1 =>
    obtain ⟨k, hk⟩ := decodeF1_error h
    cases hk
  | formatF2 =>
    obtain ⟨k, hk⟩ := decodeF2_error h
    cases hk
  | formatF3 =>
    obtain ⟨k, hk⟩ := decodeF3_error h
    cases hk

end

/-- A bit field as a number. -/
theorem toNat_extractLsb'_word (w : Word) (start len : Nat) :
    (w.extractLsb' start len).toNat = w.toNat / 2 ^ start % 2 ^ len := by
  rw [BitVec.extractLsb'_toNat, Nat.shiftRight_eq_div_pow]

theorem extractLsb'_word_eq_zero_iff (w : Word) (start len : Nat) :
    w.extractLsb' start len = 0 ↔ w.toNat / 2 ^ start % 2 ^ len = 0 := by
  rw [← BitVec.toNat_inj, toNat_extractLsb'_word]
  simp

/-- Rule R82's test of the bits of an opcode word is its range. -/
theorem opcode_valid_iff_bits (op : Word) :
    op.toNat ≤ 21 ↔ op.extractLsb' 5 11 = 0 ∧ (op.extractLsb' 0 5).toNat ≤ 21 := by
  have hop := op.isLt
  rw [extractLsb'_word_eq_zero_iff, toNat_extractLsb'_word]
  omega

/-- The instruction step where the words at `pc` decode to none (rules R105, R106). -/
theorem Machine.step_of_decode_error {s : State} {e : DecodeError} (hr : s.ready)
    (hpc : s.pc.toNat < 32768) (h : decode (s.mem.fetchWords s.pc.toNat) = .error e) :
    step s = .next (s.raise s.pc (decodeFault s.pc e).1 (decodeFault s.pc e).2) := by
  obtain ⟨hrun, hpend, hreq⟩ := hr
  simp [step_eq_instructionStep hrun hpend, instructionStep, State.fetch, hreq, hpc.not_ge, h]

/-- Settles O3: the decoder's rejections, the bit fields as numbers, and the step at a rejected word. -/
theorem opcodeWordsValidOrFault : Obligations.OpcodeWordsValidOrFault := by
  unfold Obligations.OpcodeWordsValidOrFault
  exact ⟨fun _ _ => decode_eq_invalidOpcode_iff, opcode_valid_iff_bits,
    fun s hr hpc hop => step_of_decode_error hr hpc (decode_invalidOpcode hop)⟩

/-- Settles O6: every row by evaluation of the decoder and of `Instr.operands`. -/
theorem opcodeMapRows : Obligations.OpcodeMapRows := by
  unfold Obligations.OpcodeMapRows
  intro a b c x y z rest
  and_intros <;> rfl

/-- Settles O5: the decoder evaluated at each list of words. -/
theorem sampleWordsDecode : Obligations.SampleWordsDecode := by
  unfold Obligations.SampleWordsDecode
  decide

/-! ### Operand words (rule R83) -/

theorem word_bit15_eq (w : Word) : w.getLsbD 15 = decide (32768 ≤ w.toNat) :=
  (BitVec.msb_eq_getLsbD_last w).symm.trans (BitVec.msb_eq_decide w)

/-- Settles O4: the class by the word's range, and the bits of each range. -/
theorem operandWordsHaveOneClass : Obligations.OperandWordsHaveOneClass := by
  unfold Obligations.OperandWordsHaveOneClass
  intro w
  have hw := w.isLt
  rw [word_bit15_eq, extractLsb'_word_eq_zero_iff, toNat_extractLsb'_word, decide_eq_true_eq, decide_eq_false_iff_not]
  rcases Nat.lt_or_ge w.toNat 32768 with hlit | hbig
  · have hv : w.toNat = (BitVec.ofNat 15 w.toNat).toNat := (Nat.mod_eq_of_lt hlit).symm
    exact .inl ⟨by omega, by omega, _, Operand.ofWord_lit hv, hv.symm⟩
  · rcases Nat.lt_or_ge w.toNat 32776 with hreg | hinv
    · have hval : w.toNat = 32768 + (w.toNat - 32768) := by omega
      exact .inr (.inl ⟨hbig, by omega, hbig, by omega, ⟨w.toNat - 32768, by omega⟩, Operand.ofWord_reg hval, rfl,
        show w.toNat - 32768 = _ by omega⟩)
    · exact .inr (.inr ⟨hinv, hbig, by rw [ne_eq, extractLsb'_word_eq_zero_iff]; omega, Operand.ofWord_inv hinv⟩)

end Sys2Proof

namespace Sys2Proof.Machine

/-! ### Stepping at an encoded instruction (rules R80, R102, R106) -/

/-- The words fetched where the opcode word has `n` operands and memory holds them (rule R106). -/
theorem Memory.fetchWords_eq {m : Memory} {p n : Nat} (hargc : argc (m.read p) = some n)
    (h : p + (n + 1) ≤ memWords) :
    m.fetchWords p = (List.range (n + 1)).map fun k => m.read (p + k) := by
  rw [← m.readWords_eq p (n + 1) h, Memory.readWords, if_pos (by omega), Memory.fetchWords, hargc, Option.getD_some]

/-- Where an encoding stands within memory, it is what is fetched. -/
theorem Memory.fetchWords_eq_encode {m : Memory} {p : Nat} {i : Instr} (hlen : p + i.length ≤ 32768)
    (h : ∀ k, k < i.length → (encode i)[k]? = some (m.read (p + k))) : m.fetchWords p = encode i := by
  have hlength : i.length = i.operands.length + 1 := Nat.add_comm 1 _
  have hop : i.opcode = m.read p := Option.some.inj (h 0 (by omega))
  have hargc : argc (m.read p) = some i.operands.length := hop ▸ argc_opcode i
  rw [Memory.fetchWords_eq hargc (by simpa [hlength] using hlen), ← hlength]
  refine List.ext_getElem? fun k => ?_
  rcases Nat.lt_or_ge k i.length with hk | hk
  · simp [h k hk, hk]
  · rw [List.getElem?_eq_none (by simpa using hk), List.getElem?_eq_none (by rwa [encode_length])]

/-- Settles O8: the fetched words are the encoding, which decodes to the instruction. -/
theorem stepRunsTheEncodedWords : Obligations.StepRunsTheEncodedWords := by
  unfold Obligations.StepRunsTheEncodedWords
  intro s i ⟨hrun, hpend, hreq⟩ hwf hlen hwords
  have hpc : s.pc.toNat < 32768 := by
    rw [Instr.length] at hlen
    omega
  have hdecode : decode (s.mem.fetchWords s.pc.toNat) = .ok (i, []) := by
    rw [Memory.fetchWords_eq_encode hlen hwords, ← List.append_nil (encode i)]
    exact decode_encode [] hwf
  exact step_of_decode hrun hpend hreq hpc hdecode

end Sys2Proof.Machine

/-! ## Proofs about the decode cycle (40_decode_cycle.md): which step is enabled, fetch, operand check, what one
instruction writes, and the handling of its signal -/

namespace Sys2Proof.Machine

/-! ### Which step is enabled (rules R101, R102, R104) -/

section
variable {s : State}

/-- An instruction step always answers a next state. -/
theorem instructionStep_next (s : State) : ∃ t, instructionStep s = .next t := by
  unfold instructionStep
  cases s.fetch with
  | error t => exact ⟨t, rfl⟩
  | ok i =>
    obtain ⟨t, hexec, -⟩ := exec_effect i s
    exact ⟨t, hexec⟩

theorem step_eq_inputCompletion {i : Reg} (hr : s.runState = .running) (hp : s.pendingIn = some i) :
    step s = inputCompletion i s := by
  unfold step
  rw [hr, hp]

/-- A waiting `in` goes on with a request or a byte (rule R214). -/
theorem inputCompletion_next (i : Reg) (h : s.input ≠ [] ∨ s.ckptReq = true) :
    ∃ t, inputCompletion i s = .next t := by
  unfold inputCompletion
  rcases Bool.eq_false_or_eq_true s.ckptReq with hreq | hreq
  · exact ⟨_, if_pos hreq⟩
  · obtain ⟨b, rest, hin⟩ := List.exists_cons_of_ne_nil (h.resolve_right (by simp [hreq]))
    simp [hreq, hin]

/-- A step that answers a next state had something to do: an instruction, a byte or a request. -/
theorem enabled_of_step {t : State} (h : step s = .next t) :
    s.runState = .running ∧ (s.pendingIn = none ∨ s.input ≠ [] ∨ s.ckptReq = true) := by
  obtain ⟨hr, hcases⟩ := step_cases h
  refine ⟨hr, ?_⟩
  rcases hcases with ⟨hreq, -⟩ | ⟨-, hp, -⟩ | ⟨-, hp, -⟩ | ⟨-, hp, -⟩ | ⟨-, i, b, rest, -, hin, -⟩
  · exact .inr (.inr hreq)
  · exact .inl hp
  · exact .inl hp
  · exact .inl hp
  · exact .inr (.inl (by simp [hin]))

end

/-- Settles O7: the words decode, so the instruction step is the instruction's meaning. -/
theorem stepRunsTheDecodedInstruction : Obligations.StepRunsTheDecodedInstruction := by
  unfold Obligations.StepRunsTheDecodedInstruction
  intro s i rest ⟨hrun, hpend, hreq⟩ hpc hdecode
  exact step_of_decode hrun hpend hreq hpc hdecode

/-- Settles O9: the step by `pending_in`, and each of the two steps where it answers a next state. -/
theorem stepEnabledExactlyInRunning : Obligations.StepEnabledExactlyInRunning := by
  unfold Obligations.StepEnabledExactlyInRunning
  refine ⟨fun s => step_eq_instructionStep, fun s i => step_eq_inputCompletion,
    fun s => ⟨fun ⟨t, ht⟩ => enabled_of_step ht, fun ⟨hr, hen⟩ => ?_⟩⟩
  rcases Option.eq_none_or_eq_some s.pendingIn with hp | ⟨i, hp⟩
  · rw [step_eq_instructionStep hr hp]
    exact instructionStep_next s
  · rw [step_eq_inputCompletion hr hp]
    exact inputCompletion_next i (hen.resolve_left (by simp [hp]))

/-- Settles O10: the fetch stops before it reads memory. -/
theorem fetchPastMemoryHalts : Obligations.FetchPastMemoryHalts := by
  unfold Obligations.FetchPastMemoryHalts
  intro s ⟨hrun, hpend, hreq⟩ hpc
  have hfetch : s.fetch = .error (s.stop .pcOutOfRange) := by simp [State.fetch, hreq, hpc]
  rw [step_eq_instructionStep hrun hpend, instructionStep, hfetch]
  rfl

end Sys2Proof.Machine

namespace Sys2Proof

open Machine

/-! ### The operand fetch (rule R106) -/

section
variable {op : Word} {ws : List Word} {n : Nat}

/-- The opcode word of an encoding gives the number of operand words after it. -/
theorem argc_of_encode {i : Instr} (h : encode i = op :: ws) : argc op = some ws.length := by
  obtain ⟨rfl, rfl⟩ := List.cons.inj h
  rw [List.length_map]
  exact argc_opcode i

theorem argc_eq_none (h : 22 ≤ op.toNat) : argc op = none := by
  unfold argc
  split
  case h_23 => rfl
  all_goals omega

/-- Words that end before the last operand name the first operand that is missing. -/
theorem decode_missingOperand (hargc : argc op = some n) (hlen : ws.length < n) :
    decode (op :: ws) = .error (.missingOperand (ws.length + 1)) := by
  have hrow := decode_decodesTo op ws
  generalize decode (op :: ws) = r at hrow
  cases hrow with
  | invalid hop => simp [argc_eq_none hop] at hargc
  | noOperand i henc =>
    obtain rfl : 0 = n := Option.some.inj ((argc_of_encode henc).symm.trans hargc)
    omega
  | formatF1 mk henc =>
    obtain rfl : 1 = n := Option.some.inj ((argc_of_encode (henc (.lit 0))).symm.trans hargc)
    match ws, hlen with
    | [], _ => rfl
  | formatF2 mk henc =>
    obtain rfl : 2 = n := Option.some.inj ((argc_of_encode (henc (.lit 0) (.lit 0))).symm.trans hargc)
    match ws, hlen with
    | [], _ => rfl
    | [_], _ => rfl
  | formatF3 mk henc =>
    obtain rfl : 3 = n := Option.some.inj ((argc_of_encode (henc (.lit 0) (.lit 0) (.lit 0))).symm.trans hargc)
    match ws, hlen with
    | [], _ => rfl
    | [_], _ => rfl
    | [_, _], _ => rfl

/-- A fetch that runs past memory lacks the operand at address 32768. -/
theorem Machine.Memory.decode_fetchWords_past {m : Memory} {p : Nat} (hargc : argc (m.read p) = some n)
    (hp : p < 32768) (h : 32768 ≤ p + n) :
    decode (m.fetchWords p) = .error (.missingOperand (32768 - p)) := by
  have hlen : (m.readWords (p + 1) n).length = 32767 - p := by
    rw [Memory.readWords_length, memWords_eq]
    omega
  have hmissing := decode_missingOperand (ws := m.readWords (p + 1) n) hargc (by omega)
  rw [hlen, show 32767 - p + 1 = 32768 - p by omega] at hmissing
  rwa [Memory.fetchWords, hargc, Option.getD_some]

end

/-- Settles O11: the words read within memory, and the first missing operand past it. -/
theorem operandFetchLatchesOrFaults : Obligations.OperandFetchLatchesOrFaults := by
  unfold Obligations.OperandFetchLatchesOrFaults
  intro s n hready hpc hargc
  refine ⟨fun h => ?_, fun h => ?_⟩
  · rw [Memory.fetchWords, hargc, Option.getD_some, Memory.readWords_eq _ _ _ (by rw [memWords_eq]; omega)]
  · rw [step_of_decode_error hready hpc (Memory.decode_fetchWords_past hargc hpc h)]
    have hvalue : s.pc + BitVec.ofNat 32 (32768 - s.pc.toNat) = 32768 := by bv_omega
    simp only [decodeFault, hvalue]
    rfl

end Sys2Proof

namespace Sys2Proof.Machine

/-! ### The operand check (rules R87, R88, R107) -/

/-- The operand does not fit its role. -/
def unfit (q : Role × Operand) : Bool := !q.2.fits q.1

/-- The fault an operand that fails the check raises, with its word as value (rules R87, R88). -/
def State.operandFault (s : State) (o : Operand) : State :=
  s.raise s.pc (operandFaultCause o) (o.toWord.setWidth 32)

section
variable {s : State} {a o : Operand} {r : Role} {l : List (Role × Operand)}

/-- Only an INV word, and in a D position a LIT word, fails the check (rule R84). -/
theorem inv_or_lit_of_not_fits (h : o.fits r = false) :
    (∃ w, o = .inv w) ∨ (r = .dest ∧ ∃ v, o = .lit v) := by
  cases o with
  | inv w => exact .inl ⟨w, rfl⟩
  | lit v =>
    cases r with
    | value => simp [Operand.fits] at h
    | dest => exact .inr ⟨rfl, v, rfl⟩
  | reg i => cases r <;> simp [Operand.fits] at h

theorem State.withValue_of_not_fits (h : a.fits .value = false) (k : Word → State) :
    s.withValue a k = s.operandFault a := by
  obtain ⟨w, rfl⟩ | ⟨hr, -⟩ := inv_or_lit_of_not_fits h
  · rfl
  · cases hr

theorem State.withDest_of_not_fits (h : a.fits .dest = false) (k : Reg → State) :
    s.withDest a k = s.operandFault a := by
  obtain ⟨w, rfl⟩ | ⟨-, v, rfl⟩ := inv_or_lit_of_not_fits h
  · rfl
  · simp [State.withDest, State.operandFault, operandFaultCause, Operand.toWord]

/-- The first operand that fails is the head, or the head passes and it is the first of the others. -/
theorem find?_unfit_cons {p : Role} (h : ((p, a) :: l).find? unfit = some (r, o)) :
    (a.fits p = false ∧ a = o) ∨ (a.fits p = true ∧ l.find? unfit = some (r, o)) := by
  rcases Bool.eq_false_or_eq_true (a.fits p) with ha | ha
  · exact .inr ⟨ha, by simpa [List.find?_cons, unfit, ha] using h⟩
  · refine .inl ⟨ha, ?_⟩
    simp only [List.find?_cons, unfit, ha, Bool.not_false, Option.some.injEq, Prod.mk.injEq] at h
    exact h.2

/-- The check of a V operand raises the fault of the first operand that fails, where what comes after does. -/
theorem State.withValue_firstUnfit {k : Word → State} (h : ((.value, a) :: l).find? unfit = some (r, o))
    (hk : ∀ v, l.find? unfit = some (r, o) → k v = s.operandFault o) : s.withValue a k = s.operandFault o := by
  rcases find?_unfit_cons h with ⟨ha, rfl⟩ | ⟨ha, hl⟩
  · exact State.withValue_of_not_fits ha k
  · rw [State.withValue_of_fits s ha]
    exact hk _ hl

/-- The check of a D operand raises the fault of the first operand that fails, where what comes after does. -/
theorem State.withDest_firstUnfit {k : Reg → State} (h : ((.dest, a) :: l).find? unfit = some (r, o))
    (hk : ∀ d, l.find? unfit = some (r, o) → k d = s.operandFault o) : s.withDest a k = s.operandFault o := by
  rcases find?_unfit_cons h with ⟨ha, rfl⟩ | ⟨ha, hl⟩
  · exact State.withDest_of_not_fits ha k
  · obtain ⟨d, rfl⟩ := Operand.eq_reg_of_fits ha
    exact hk d hl

/-- The operand check of each instruction follows the roles of its positions, and past the last position none is
left to fail. -/
theorem exec_firstUnfit {i : Instr} (h : i.operands.find? unfit = some (r, o)) :
    exec i s = .next (s.operandFault o) := by
  cases i with
  | halt | ret | noop => cases h
  | push a | jmp a | call a | out a => exact congrArg _ (State.withValue_firstUnfit h fun _ h => nomatch h)
  | pop a | in_ a => exact congrArg _ (State.withDest_firstUnfit h fun _ h => nomatch h)
  | jt a b | jf a b | wmem a b =>
    exact congrArg _ (State.withValue_firstUnfit h fun _ h => State.withValue_firstUnfit h fun _ h => nomatch h)
  | set a b | not a b | rmem a b =>
    exact congrArg _ (State.withDest_firstUnfit h fun _ h => State.withValue_firstUnfit h fun _ h => nomatch h)
  | eq a b c | gt a b c | add a b c | mult a b c | mod a b c | and a b c | or a b c =>
    exact congrArg _ (State.withDest_firstUnfit h fun _ h => State.withValue_firstUnfit h fun _ h =>
      State.withValue_firstUnfit h fun _ h => nomatch h)

end

/-- Settles O12: the operand that fails after others that fit is the first one the check finds. -/
theorem operandCheckInPositionOrder : Obligations.OperandCheckInPositionOrder := by
  unfold Obligations.OperandCheckInPositionOrder
  intro s i before after r o hops hbefore ho
  refine ⟨inv_or_lit_of_not_fits ho, exec_firstUnfit (r := r) ?_⟩
  rw [List.find?_eq_some_iff_append]
  exact ⟨by simp [unfit, ho], before, after, hops, fun q hq => by simp [unfit, hbefore q hq]⟩

/-! ### What one instruction writes (rule R113) -/

section
variable {s t : State} {i : Instr}

theorem Effect.sameRegs_cases (he : Effect s i t) :
    SameRegs s t ∨ ∃ d, i.operands.head? = some (.dest, .reg d) ∧ SameRegsBut d s t := by
  rcases he.regs_cases with hregs | ⟨d, v, hd, hregs⟩
  · exact .inl (State.readReg_congr hregs)
  · exact .inr ⟨d, hd, fun r hr => (State.readReg_congr hregs r).trans (s.readReg_writeReg_of_ne v hr)⟩

theorem Effect.mem_cases (he : Effect s i t) :
    t.mem = s.mem ∨ ∃ a b, i = .wmem a b ∧ (s.resolve a).toNat < 32768 ∧
      t.mem = s.mem.write (s.resolve a).toNat (mask15 (s.resolve b).toNat) := by
  cases he with
  | wroteMem a b _ ha => exact .inr ⟨a, b, rfl, ha, by simp⟩
  | illFormed | wroteReg | emitted | advanced | jumped | pushed | called | popped | returned | stopped | waits
  | faulted => left; simp

theorem Effect.sameMem_cases (he : Effect s i t) :
    SameMem s t ∨ ∃ a b, i = .wmem a b ∧ (s.resolve a).toNat < 32768 ∧ SameMemBut (s.resolve a).toNat s t := by
  rcases he.mem_cases with hmem | ⟨a, b, hi, ha, hmem⟩
  · exact .inl fun x => by rw [hmem]
  · exact .inr ⟨a, b, hi, ha, fun x hx => by rw [hmem, Memory.read_write_of_ne _ _ hx]⟩

theorem Effect.output_cases (he : Effect s i t) :
    t.output = s.output ∨ ∃ a, i = .out a ∧ t.output = s.output ++ [(s.resolve a).setWidth 8] := by
  cases he with
  | emitted a => exact .inr ⟨a, rfl, by simp⟩
  | illFormed | wroteReg | wroteMem | advanced | jumped | pushed | called | popped | returned | stopped | waits
  | faulted => left; simp

/-- No instruction consumes a byte, touches the request or sets the parameter. -/
theorem Effect.input_ckptReq_config (he : Effect s i t) :
    t.input = s.input ∧ t.ckptReq = s.ckptReq ∧ t.config = s.config := by
  cases he <;> simp

end

/-- Settles O58: what an effect does to each part of the state. -/
theorem oneInstructionWritesAtMost : Obligations.OneInstructionWritesAtMost := by
  unfold Obligations.OneInstructionWritesAtMost
  intro i s
  obtain ⟨t, hexec, he⟩ := exec_effect i s
  refine ⟨t, hexec, he.sameRegs_cases, he.sameMem_cases, ?_, he.output_cases, he.input_ckptReq_config⟩
  rcases he.stack_cases with hsame | ⟨a, -, -, hpush⟩ | ⟨a, -, hcall⟩ | ⟨-, v, hpop⟩
  · exact .inl hsame
  · exact .inr (.inl ⟨_, hpush⟩)
  · exact .inr (.inl ⟨_, hcall⟩)
  · exact .inr (.inr ⟨v, hpop⟩)

/-! ### The signal: the reconcile runs after CONTINUE only (rules R110, R111) -/

section
variable {s t u : State} {i : Instr}

/-- A signal leaves the core in RUNNING with no input pending only where it is CONTINUE and `used` fits `cap`. -/
theorem State.signal_continues {p : Count} {sig : Signal} (hr : (u.signal p sig).runState = .running)
    (hp : (u.signal p sig).pendingIn = none) :
    sig = .cont ∧ u.used ≤ u.cap.toNat ∧ u.signal p sig = { u with cap := reconciledCap u.used u.cap } := by
  cases sig with
  | cont =>
    rcases u.postInstruction_cases p with ⟨-, e⟩ | ⟨hle, e⟩
    · rw [State.signal_cont, e] at hr
      cases hr
    · exact ⟨rfl, hle, e⟩
  | stop r => cases hr
  | fault c v => cases hr
  | waitInput i => cases hp

/-- Any other signal keeps the capacity, and so does the STACK_INVARIANT of the post-instruction check. -/
theorem State.cap_signal {p : Count} {sig : Signal} (hr : u.runState = .running) (hp : u.pendingIn = none)
    (h : (u.signal p sig).runState ≠ .running ∨ (u.signal p sig).pendingIn ≠ none) :
    (u.signal p sig).cap = u.cap := by
  cases sig with
  | cont =>
    rcases u.postInstruction_cases p with ⟨-, e⟩ | ⟨-, e⟩ <;> rw [State.signal_cont, e] at h ⊢
    · rfl
    · exact absurd h (by simp [hr, hp])
  | stop r => rfl
  | fault c v => rfl
  | waitInput i => rfl

/-- Every effect ends by a signal, with status, control and capacity till then as they were. -/
theorem Effect.exists_signal (he : Effect s i t) :
    ∃ u sig, t = u.signal s.pc sig ∧ SameStatus s u ∧ SameControl s u ∧ u.cap = s.cap := by
  have hstatus : SameStatus s s := ⟨rfl, rfl, rfl, rfl, rfl⟩
  have hcontrol : SameControl s s := ⟨rfl, rfl, rfl⟩
  cases he with
  | wroteReg | wroteMem | emitted | advanced | jumped | pushed | called | popped | returned =>
    exact ⟨_, .cont, rfl, hstatus, hcontrol, rfl⟩
  | illFormed _ c v => exact ⟨s, .fault c v, rfl, hstatus, hcontrol, rfl⟩
  | stopped _ r => exact ⟨s.advance 1, .stop r, rfl, hstatus, hcontrol, rfl⟩
  | waits d => exact ⟨s.advance 2, .waitInput d, rfl, hstatus, hcontrol, rfl⟩
  | faulted i c v => exact ⟨s.advance i.length, .fault c v, rfl, hstatus, hcontrol, rfl⟩

/-- An instruction that leaves the core in RUNNING with no input pending continued and passed the check. -/
theorem Effect.continues (he : Effect s i t) (hr : t.runState = .running) (hp : t.pendingIn = none) :
    Continues s t ∧ t.used ≤ s.cap.toNat := by
  obtain ⟨u, sig, rfl, hstatus, hcontrol, hcap⟩ := he.exists_signal
  obtain ⟨-, hle, e⟩ := State.signal_continues hr hp
  rw [e, ← hcap]
  exact ⟨⟨hstatus, hcontrol, by rw [← hcap]; rfl⟩, hle⟩

end

/-- Settles O14: every effect ends by a signal, and only CONTINUE reconciles. -/
theorem reconcileRunsOnlyAfterContinue : Obligations.ReconcileRunsOnlyAfterContinue := by
  unfold Obligations.ReconcileRunsOnlyAfterContinue
  intro i s t hr hp hexec
  have he := effect_of_exec hexec
  refine ⟨fun ⟨htr, htp⟩ => ?_, fun h => ?_⟩
  · obtain ⟨⟨-, -, hcap⟩, hle⟩ := he.continues htr htp
    exact ⟨hle, hcap⟩
  · obtain ⟨u, sig, rfl, ⟨hur, -⟩, ⟨hup, -⟩, hcap⟩ := he.exists_signal
    rw [State.cap_signal (hur.trans hr) (hup.trans hp) h, hcap]

/-! ### The capacity before the signal: every instruction but `push` and `call` leaves it unread -/

/-- The state with another capacity. -/
def State.withCap (s : State) (c : Count) : State := { s with cap := c }

/-- A body of the execute phase that neither reads nor changes the capacity. -/
def LeavesCap (body : State → State × Signal) : Prop :=
  ∀ (u : State) (c : Count), body (u.withCap c) = ((body u).1.withCap c, (body u).2)

/-- Whatever the capacity, what the instruction at `p` comes to (`f`, by the capacity) is one state and one signal,
which alone meets the capacity. -/
def EndsAlike (p : Count) (f : Count → State) : Prop :=
  ∃ (v : State) (sig : Signal), ∀ c, f c = (v.withCap c).signal p sig

section
variable {s : State}

theorem EndsAlike.withDest {k : Count → Reg → State} (h : ∀ d, EndsAlike s.pc fun c => k c d) (o : Operand) :
    EndsAlike s.pc fun c => (s.withCap c).withDest o (k c) := by
  cases o with
  | lit v => exact ⟨s, .fault _ _, fun _ => rfl⟩
  | reg i => exact h i
  | inv w => exact ⟨s, .fault _ _, fun _ => rfl⟩

theorem EndsAlike.withValue {k : Count → Word → State} (h : ∀ x, EndsAlike s.pc fun c => k c x) (o : Operand) :
    EndsAlike s.pc fun c => (s.withCap c).withValue o (k c) := by
  cases o with
  | lit v => exact h _
  | reg i => exact h (s.readReg i)
  | inv w => exact ⟨s, .fault _ _, fun _ => rfl⟩

theorem LeavesCap.execute {body : State → State × Signal} (h : LeavesCap body) (n : Nat) :
    EndsAlike s.pc fun c => (s.withCap c).execute n body :=
  ⟨_, _, fun c => congrArg (fun r : State × Signal => r.1.signal s.pc r.2) (h (s.advance n) c)⟩

theorem LeavesCap.ite {q : Prop} [Decidable q] {f g : State → State × Signal} (hf : LeavesCap f)
    (hg : LeavesCap g) : LeavesCap fun u => if q then f u else g u := by
  intro u c
  by_cases hq : q
  · simpa only [if_pos hq] using hf u c
  · simpa only [if_neg hq] using hg u c

theorem State.stackPop_withCap (c : Count) :
    (s.withCap c).stackPop = s.stackPop.map fun r => (r.1, r.2.withCap c) := by
  simp only [State.stackPop, State.withCap]
  cases s.stack.getLast? <;> rfl

theorem EndsAlike.aluBinary (f : AluFn) (x y z : Operand) :
    EndsAlike s.pc fun c => (s.withCap c).aluBinary f x y z :=
  .withDest (fun _ => .withValue (fun _ => .withValue (fun _ => LeavesCap.execute (fun _ _ => rfl) 4) z) y) x

/-- Every instruction but `push` and `call` comes to the same state and signal at every capacity. -/
theorem exec_endsAlike {i : Instr} (s : State) (hi : ∀ a, i ≠ .push a ∧ i ≠ .call a) :
    ∃ f, (∀ c, exec i (s.withCap c) = .next (f c)) ∧ EndsAlike s.pc f := by
  cases i with
  | halt | noop => exact ⟨_, fun _ => rfl, LeavesCap.execute (fun _ _ => rfl) _⟩
  | eq x y z | gt x y z | add x y z | mult x y z | and x y z | or x y z =>
    exact ⟨_, fun _ => rfl, .aluBinary _ x y z⟩
  | mod x y z =>
    exact ⟨_, fun _ => rfl, .withDest (fun _ => .withValue (fun _ => .withValue (fun _ =>
      LeavesCap.execute (.ite (fun _ _ => rfl) fun _ _ => rfl) _) z) y) x⟩
  | set x y | not x y =>
    exact ⟨_, fun _ => rfl, .withDest (fun _ => .withValue (fun _ => LeavesCap.execute (fun _ _ => rfl) _) y) x⟩
  | rmem x y =>
    exact ⟨_, fun _ => rfl, .withDest (fun _ => .withValue (fun _ =>
      LeavesCap.execute (.ite (fun _ _ => rfl) fun _ _ => rfl) _) y) x⟩
  | wmem x y =>
    exact ⟨_, fun _ => rfl, .withValue (fun _ => .withValue (fun _ =>
      LeavesCap.execute (.ite (fun _ _ => rfl) fun _ _ => rfl) _) y) x⟩
  | jt x y | jf x y =>
    refine ⟨_, fun _ => rfl, .withValue (fun _ => .withValue (fun _ => LeavesCap.execute (fun u c => ?_) _) y) x⟩
    split <;> rfl
  | jmp x | out x => exact ⟨_, fun _ => rfl, .withValue (fun _ => LeavesCap.execute (fun _ _ => rfl) _) x⟩
  | in_ x => exact ⟨_, fun _ => rfl, .withDest (fun _ => LeavesCap.execute (fun _ _ => rfl) _) x⟩
  | pop x =>
    refine ⟨_, fun _ => rfl, .withDest (fun _ => LeavesCap.execute (fun u c => ?_) _) x⟩
    simp only [State.stackPop_withCap]
    cases u.stackPop <;> rfl
  | ret =>
    refine ⟨_, fun _ => rfl, LeavesCap.execute (fun u c => ?_) _⟩
    simp only [State.stackPop_withCap]
    cases u.stackPop <;> rfl
  | push x => exact absurd rfl (hi x).1
  | call x => exact absurd rfl (hi x).2

end

/-! ### STACK_INVARIANT after an instruction (rules R111, R140, R233) -/

section
variable {s t u : State} {i : Instr}

/-- A fault after the advance changes nothing but `pc` and the fault record (rule R233). -/
theorem faultedInExecute_raise (s : State) (n : Nat) (c : FaultCause) (v : Count) :
    FaultedInExecute c v n s ((s.advance n).raise s.pc c v) :=
  ⟨⟨rfl, rfl, rfl, rfl, rfl⟩, rfl, fun _ => rfl, fun _ => rfl, ⟨rfl, rfl⟩, ⟨rfl, rfl, rfl⟩, rfl, rfl⟩

theorem Effect.used_le (he : Effect s i t) : t.used ≤ s.used + 1 := by
  unfold State.used
  rcases he.stack_cases with hsame | ⟨a, -, -, hpush⟩ | ⟨a, -, hcall⟩ | ⟨-, v, hpop⟩
  · rw [hsame]
    exact Nat.le_succ _
  · rw [hpush, List.length_append, List.length_singleton]
  · rw [hcall, List.length_append, List.length_singleton]
  · rw [hpop, List.length_append, List.length_singleton]
    omega

/-- An instruction after which the core is still RUNNING passed the operand check. -/
theorem wellFormed_of_running (hexec : exec i s = .next t) (hr : t.runState = .running) : i.wellFormed = true := by
  by_contra hw
  obtain ⟨c, v, -, hfault⟩ := exec_illFormed (s := s) (Bool.not_eq_true _ ▸ hw)
  cases hfault.symm.trans hexec
  cases hr

/-- `push` and `call` where the stack has no free slot (rule R140). -/
theorem exec_push_call_full {a : Operand} (hi : i = .push a ∨ i = .call a) (hw : i.wellFormed = true)
    (hfull : s.cap.toNat ≤ s.used) :
    exec i s = .next ((s.advance 2).raise s.pc .stackInvariant s.usedCount) := by
  rcases hi with rfl | rfl
  · rw [exec_push (fits_of_wf1 rfl hw), if_pos hfull]
  · rw [exec_call (fits_of_wf1 rfl hw), if_pos hfull]

/-- An instruction other than `push` and `call` that continues at the capacity `c`, and leaves a `used` above the
state's own capacity, comes at that capacity to the same state and STACK_INVARIANT. -/
theorem exec_postInstruction_fault {c : Count} (hi : ∀ a, i ≠ .push a ∧ i ≠ .call a)
    (hexec : exec i (s.withCap c) = .next u) (hr : u.runState = .running) (hp : u.pendingIn = none)
    (hlt : s.cap.toNat < u.used) :
    exec i s = .next ((u.withCap s.cap).raise s.pc .stackInvariant u.usedCount) := by
  obtain ⟨f, hf, v, sig, hv⟩ := exec_endsAlike s hi
  obtain rfl : f c = u := Host.Outcome.next.inj ((hf c).symm.trans hexec)
  rw [hv c] at hr hp hlt ⊢
  obtain ⟨rfl, -, e⟩ := State.signal_continues hr hp
  rw [e] at hlt ⊢
  calc exec i s = .next ((v.withCap s.cap).postInstruction s.pc) := (hf s.cap).trans (congrArg _ (hv s.cap))
    _ = .next ((v.withCap s.cap).raise s.pc .stackInvariant v.usedCount) :=
      congrArg _ (State.postInstruction_of_lt _ hlt)

end

/-- Settles O13: `push` and `call` find the stack full, any other instruction fails the post-instruction check in the
state it has come to. -/
theorem postInstructionFaultKeepsEffects : Obligations.PostInstructionFaultKeepsEffects := by
  unfold Obligations.PostInstructionFaultKeepsEffects
  intro i s u c hexec hr hp hlt
  have he := effect_of_exec hexec
  by_cases hi : ∃ a, i = .push a ∨ i = .call a
  · have hfull : s.cap.toNat ≤ s.used := Nat.le_of_lt_succ (hlt.trans_le he.used_le)
    obtain ⟨a, ha⟩ := hi
    refine ⟨_, exec_push_call_full ha (wellFormed_of_running hexec hr) hfull, fun h => ?_,
      fun _ => faultedInExecute_raise s 2 _ _⟩
    exact absurd ha (not_or.2 (h a))
  · have hother : ∀ a, i ≠ .push a ∧ i ≠ .call a := by simpa only [not_exists, not_or] using hi
    obtain ⟨⟨⟨-, hhalt, -⟩, hcontrol, -⟩, -⟩ := he.continues hr hp
    exact ⟨_, exec_postInstruction_fault hother hexec hr hp hlt,
      fun _ => ⟨⟨rfl, rfl, rfl, rfl, hhalt⟩, fun _ => rfl, fun _ => rfl, rfl, rfl, ⟨rfl, rfl⟩, rfl, hcontrol⟩,
      fun h => absurd h hi⟩

end Sys2Proof.Machine

/-! ## Proofs about the moves (41_move.md): what an instruction that continues leaves, and `set`, `rmem` and `wmem` -/

namespace Sys2Proof.Machine

/-! ### Passing the post-instruction check (rules R111, R113) -/

section
variable {s u : State}

/-- An execute phase that has kept status, control and capacity, and leaves a `used` within the capacity, continues. -/
theorem continues_postInstruction (p : Count) (hstatus : SameStatus s u) (hcontrol : SameControl s u)
    (hcap : u.cap = s.cap) (hle : u.used ≤ s.cap.toNat) : Continues s (u.postInstruction p) := by
  rw [← hcap] at hle
  rw [u.postInstruction_of_le hle, hcap]
  exact ⟨hstatus, hcontrol, rfl⟩

/-- A register write after the advance, where the check passes, leaves everything but that register and `pc`. -/
theorem wroteReg_postInstruction (h : s.used ≤ s.cap.toNat) (d : Reg) (v n : Nat) :
    WroteReg d (v % 32768) n s (((s.advance n).writeReg d v).postInstruction s.pc) := by
  refine ⟨by simp, fun r hr => ?_, by simp, fun a => by simp, by simp, ⟨by simp, by simp⟩, ?_⟩
  · rw [State.postInstruction_readReg, State.readReg_writeReg_of_ne _ _ hr, State.advance_readReg]
  · exact continues_postInstruction s.pc ⟨rfl, rfl, rfl, rfl, rfl⟩ ⟨rfl, rfl, rfl⟩ rfl h

end

/-! ### The three moves (rules R130 to R132) -/

/-- Settles O16: `set` is a register write of the resolved value. -/
theorem setWritesResolvedValue : Obligations.SetWritesResolvedValue := by
  unfold Obligations.SetWritesResolvedValue
  intro s d b hb hused
  exact ⟨_, exec_set hb, wroteReg_postInstruction hused d _ 3⟩

/-- Settles O17: `rmem` is a register write of the cell, or a fault raised after the advance. -/
theorem rmemReadsCellOrFaults : Obligations.RmemReadsCellOrFaults := by
  unfold Obligations.RmemReadsCellOrFaults
  intro s d b hb
  refine ⟨fun haddr hused => ?_, fun haddr => ?_⟩
  · rw [exec_rmem hb, if_neg (Nat.not_le.2 haddr)]
    exact ⟨_, rfl, wroteReg_postInstruction hused d _ 3⟩
  · rw [exec_rmem hb, if_pos haddr]
    exact ⟨_, rfl, faultedInExecute_raise s 3 _ _⟩

/-- Settles O18: `wmem` is one memory write, read back by the laws of `Memory.write`, or a fault raised after the
advance. -/
theorem wmemWritesCellOrFaults : Obligations.WmemWritesCellOrFaults := by
  unfold Obligations.WmemWritesCellOrFaults
  intro s a b ha hb
  refine ⟨fun haddr hused hmem => ?_, fun haddr => ?_⟩
  · rw [exec_wmem ha hb, if_neg (Nat.not_le.2 haddr)]
    refine ⟨_, rfl, ?_, fun x hx => ?_, fun r => by simp, by simp, ⟨by simp, by simp⟩, by simp, ?_⟩
    · simp [Memory.read_write_self _ _ _ hmem]
    · simp [Memory.read_write_of_ne _ _ hx]
    · exact continues_postInstruction s.pc ⟨rfl, rfl, rfl, rfl, rfl⟩ ⟨rfl, rfl, rfl⟩ rfl hused
  · rw [exec_wmem ha hb, if_pos haddr]
    exact ⟨_, rfl, faultedInExecute_raise s 3 _ _⟩

end Sys2Proof.Machine

/-! ## Proofs about the stack (42_stack.md): whole runs from a program load, the reconcile, `push` and `pop`, and what
the capacity has no effect on -/

namespace Sys2Proof.Machine

/-! ### Runs from a program load (rule R145) -/

section
variable {s t : State}

/-- Registers and `pc` are 0, the stack is empty and `cap` is 32 (rule R270). -/
theorem State.loadInv_programLoaded (h : s.config.wf) {ws : List Word} (hws : ws.length ≤ memWords) :
    (s.programLoaded ws).loadInv := by
  have hregs : ∀ r : Reg, (State.reset.readReg r).toNat < 32768 := by decide
  exact (State.loadInv_iff _).2 ⟨State.wf_programLoaded h hws,
    ⟨hregs, Nat.zero_le _, List.forall_mem_nil _⟩, ⟨⟨5, le_rfl, by decide, rfl⟩, Nat.zero_lt_succ 31⟩, nofun⟩

theorem State.loadInv_offerByte (h : s.loadInv) (b : Byte) : (s.offerByte b).loadInv := by
  obtain ⟨hwf, hrest⟩ := h
  exact ⟨(State.wf_offerByte b).2 hwf, hrest⟩

theorem State.loadInv_requestCheckpoint (h : s.loadInv) : s.requestCheckpoint.loadInv := by
  obtain ⟨hwf, hrest⟩ := h
  refine ⟨State.wf_requestCheckpoint hwf, ?_⟩
  unfold State.requestCheckpoint
  split <;> exact hrest

theorem State.apply_step_eq_some : s.apply .step = some t ↔ step s = .next t := by
  unfold State.apply
  cases step s <;> simp

theorem State.applyAll_cons_eq_some {e : Event} {es : List Event} :
    s.applyAll (e :: es) = some t ↔ ∃ u, s.apply e = some u ∧ u.applyAll es = some t := by
  rw [State.applyAll]
  cases s.apply e <;> simp

/-- Every event but a restore keeps the invariants of a program load. -/
theorem State.apply_keeps_loadInv {e : Event} (h : s.loadInv) (he : e.isRestore = false)
    (happly : s.apply e = some t) : t.loadInv := by
  cases e with
  | step => exact stepKeepsLoadInvariants s t h (State.apply_step_eq_some.1 happly)
  | offer b =>
    cases happly
    exact State.loadInv_offerByte h b
  | request =>
    cases happly
    exact State.loadInv_requestCheckpoint h
  | load ws =>
    obtain ⟨⟨-, -, hconfig, -⟩, -⟩ := h
    obtain ⟨-, hws, rfl⟩ := State.programLoad_eq_some.1 happly
    exact State.loadInv_programLoaded hconfig hws
  | restore img => cases he
  | start =>
    cases happly
    exact h

theorem State.applyAll_keeps_loadInv {es : List Event} (h : s.loadInv) (hes : ∀ e ∈ es, e.isRestore = false)
    (hrun : s.applyAll es = some t) : t.loadInv := by
  induction es generalizing s with
  | nil =>
    cases hrun
    exact h
  | cons e es ih =>
    obtain ⟨he, hes⟩ := List.forall_mem_cons.1 hes
    obtain ⟨u, happly, hrun⟩ := State.applyAll_cons_eq_some.1 hrun
    exact ih (State.apply_keeps_loadInv h he happly) hes hrun

end

/-- Settles O53: the invariants hold after the load, and by induction on the events after every one of them. -/
theorem runsFromLoadKeepInvariants : Obligations.RunsFromLoadKeepInvariants := by
  unfold Obligations.RunsFromLoadKeepInvariants
  intro s t ws es hconfig hws hes hrun
  exact State.applyAll_keeps_loadInv (State.loadInv_programLoaded hconfig (by rwa [memWords_eq])) hes hrun

/-! ### The reconcile (rule R144) -/

/-- The reconcile leaves room for the stack it found. -/
theorem le_reconciledCap {used : Nat} {cap : Count} (hle : used ≤ cap.toNat) (hmax : used ≤ stackMaxBound) :
    used ≤ (reconciledCap used cap).toNat := by
  rw [reconciledCap_toNat cap hmax]
  split
  · omega
  · split <;> omega

/-- Settles O15: the three cases of the new capacity as a number. -/
theorem reconcileGrowsAndShrinks : Obligations.ReconcileGrowsAndShrinks := by
  unfold Obligations.ReconcileGrowsAndShrinks
  intro s p ⟨_, hbound⟩ hused hle
  have hcap := reconciledCap_toNat s.cap (hused.trans hbound)
  rw [s.postInstruction_of_le hle]
  refine ⟨fun hgrow => ?_, fun hne hshrink => ?_, fun hne hkeep => BitVec.eq_of_toNat_eq ?_, rfl⟩
  · rw [hcap, if_pos hgrow, Nat.mul_comm]
  · rw [hcap, if_neg hne, if_pos hshrink]
  · rw [hcap, if_neg hne, if_neg hkeep]

/-! ### `push` and `pop` (rules R140 to R143) -/

/-- Settles O19: the three cases of `exec_push`. -/
theorem pushAddsTopOrFaults : Obligations.PushAddsTopOrFaults := by
  unfold Obligations.PushAddsTopOrFaults
  intro s a ha
  refine ⟨fun hroom hmax => ?_, fun hfull => ?_, fun hroom hmax => ?_⟩
  · rw [exec_push ha, if_neg hroom.not_ge, if_neg hmax.not_ge]
    refine ⟨_, rfl, by simp, State.postInstruction_readReg _ s.pc, fun x => by simp, ⟨by simp, by simp⟩, by simp, ?_⟩
    refine continues_postInstruction s.pc ⟨rfl, rfl, rfl, rfl, rfl⟩ ⟨rfl, rfl, rfl⟩ rfl ?_
    rw [State.used_withStack, List.length_append, List.length_singleton]
    exact hroom
  · rw [exec_push ha, if_pos hfull]
    exact ⟨_, rfl, faultedInExecute_raise s 2 _ _⟩
  · rw [exec_push ha, if_neg hroom.not_ge, if_pos hmax]
    exact ⟨_, rfl, faultedInExecute_raise s 2 _ _⟩

/-- Settles O20: `pop` is a register write on the shorter stack, or a fault raised after the advance. -/
theorem popTakesTopOrFaults : Obligations.PopTakesTopOrFaults := by
  unfold Obligations.PopTakesTopOrFaults
  intro s d
  refine ⟨fun l v hstack hle => ?_, fun hnil => ?_⟩
  · refine ⟨_, exec_pop_concat hstack, by simp, by simp, fun r hr => ?_, fun x => by simp, ⟨by simp, by simp⟩,
      by simp, continues_postInstruction s.pc ⟨rfl, rfl, rfl, rfl, rfl⟩ ⟨rfl, rfl, rfl⟩ rfl hle⟩
    rw [State.postInstruction_readReg, State.readReg_writeReg_of_ne _ _ hr, State.readReg_withStack,
      State.advance_readReg]
  · exact ⟨_, exec_pop_nil hnil, faultedInExecute_raise s 2 _ _⟩

/-- Settles O21: the `push` continues, the capacity it leaves has room for the stack of before, and so the `pop`
continues on the pushed value. -/
theorem pushThenPopGivesValueBack : Obligations.PushThenPopGivesValueBack := by
  unfold Obligations.PushThenPopGivesValueBack
  intro s t u a d ha hroom hmax ⟨_, hbound⟩ hpush hpop
  obtain ⟨t', ht', hstack, -, -, -, -, ⟨hrun, -⟩, -, hcap⟩ := (pushAddsTopOrFaults s a ha).1 hroom hmax
  cases ht'.symm.trans hpush
  have hused : t.used = s.used + 1 := by simp [State.used, hstack]
  have hle : s.used ≤ t.cap.toNat := by
    have hreconciled : t.used ≤ (reconciledCap t.used s.cap).toNat :=
      le_reconciledCap (hused.trans_le hroom) (hused.trans_le (hmax.trans_le hbound))
    rw [← hcap] at hreconciled
    omega
  obtain ⟨u', hu', hpopped, hreg, -, -, -, -, ⟨hrun', -⟩, -⟩ := (popTakesTopOrFaults t d).1 _ _ hstack hle
  cases hu'.symm.trans hpop
  exact ⟨hpopped, hreg, hrun'.trans hrun⟩

/-! ### The same step at another capacity (rule R146) -/

/-- Whatever the capacity, so long as it has a free slot, instruction `i` at `s` comes to one state and one signal. -/
def EndsAlikeWithRoom (s : State) (i : Instr) : Prop :=
  ∃ (v : State) (sig : Signal), ∀ c : Count, s.used < c.toNat →
    exec i (s.withCap c) = .next ((v.withCap c).signal s.pc sig)

section
variable {s t : State} {i : Instr} {c : Count}

@[simp] theorem State.withCap_used : (s.withCap c).used = s.used := rfl

@[simp] theorem State.used_signal (p : Count) (sig : Signal) : (s.signal p sig).used = s.used := by
  cases sig with
  | cont => exact s.postInstruction_used p
  | stop r | fault r v | waitInput j => rfl

/-- Where the stack fits both capacities, a signal makes of them the same state but for the capacity. -/
theorem State.signal_withCap (p : Count) (sig : Signal) (h : s.used ≤ s.cap.toNat) (h' : s.used ≤ c.toNat) :
    ∃ c', (s.withCap c).signal p sig = (s.signal p sig).withCap c' := by
  cases sig with
  | cont =>
    refine ⟨reconciledCap s.used c, ?_⟩
    rw [State.signal_cont, State.signal_cont, s.postInstruction_of_le h]
    exact State.postInstruction_of_le (s.withCap c) h'
  | stop r | fault r v | waitInput j => exact ⟨c, rfl⟩

/-- `push` and `call` come to the same state and signal at every capacity that has a free slot: the push itself, the
physical depth, or the operand that fails the check (rules R140, R142, R193). -/
theorem exec_push_call_endsAlike {a : Operand} (s : State) (hi : i = .push a ∨ i = .call a) :
    EndsAlikeWithRoom s i := by
  rcases Bool.eq_false_or_eq_true (a.fits .value) with ha | ha
  · by_cases hmax : s.config.stackMax ≤ s.used
    · refine ⟨s.advance 2, .fault .stackOverflow s.usedCount, fun c hc => ?_⟩
      rcases hi with rfl | rfl
      · exact (exec_push ha).trans (congrArg _ ((if_neg hc.not_ge).trans (if_pos hmax)))
      · exact (exec_call ha).trans (congrArg _ ((if_neg hc.not_ge).trans (if_pos hmax)))
    · rcases hi with rfl | rfl
      · exact ⟨{ s.advance 2 with stack := s.stack ++ [s.resolve a] }, .cont, fun c hc =>
          (exec_push ha).trans (congrArg _ ((if_neg hc.not_ge).trans (if_neg hmax)))⟩
      · exact ⟨State.jump { s.advance 2 with stack := s.stack ++ [(s.pc + 2).setWidth 16] } (s.resolve a), .cont,
          fun c hc => (exec_call ha).trans (congrArg _ ((if_neg hc.not_ge).trans (if_neg hmax)))⟩
  · refine ⟨s, .fault (operandFaultCause a) (a.toWord.setWidth 32), fun c _ => ?_⟩
    rcases hi with rfl | rfl <;> exact congrArg _ (State.withValue_of_not_fits ha _)

/-- Every instruction comes to the same state and signal at every capacity that has a free slot. -/
theorem exec_endsAlike_of_room (i : Instr) (s : State) : EndsAlikeWithRoom s i := by
  by_cases hi : ∃ a, i = .push a ∨ i = .call a
  · obtain ⟨a, ha⟩ := hi
    exact exec_push_call_endsAlike s ha
  · obtain ⟨f, hf, v, sig, hv⟩ := exec_endsAlike (i := i) s (by simpa only [not_exists, not_or] using hi)
    exact ⟨v, sig, fun c _ => (hf c).trans (congrArg _ (hv c))⟩

/-- An instruction adds one entry at most, so the stack it leaves still fits both capacities. -/
theorem exec_withCap (h : s.used < s.cap.toNat) (h' : s.used < c.toNat) (hexec : exec i s = .next t) :
    ∃ c', exec i (s.withCap c) = .next (t.withCap c') := by
  obtain ⟨v, sig, hv⟩ := exec_endsAlike_of_room i s
  obtain rfl : (v.withCap s.cap).signal s.pc sig = t := Host.Outcome.next.inj ((hv s.cap h).symm.trans hexec)
  have hused : v.used ≤ s.used + 1 := by simpa using (effect_of_exec hexec).used_le
  obtain ⟨c', hc'⟩ := State.signal_withCap (s := v.withCap s.cap) s.pc sig (hused.trans h) (hused.trans h')
  exact ⟨c', (hv c h').trans (congrArg _ hc')⟩

/-- A latched request is taken at once, whether an `in` waits or not (rules R241, R242). -/
theorem step_of_request (hr : s.runState = .running) (hreq : s.ckptReq = true) :
    step s = .next s.takeCheckpoint := by
  rcases Option.eq_none_or_eq_some s.pendingIn with hp | ⟨j, hp⟩
  · rw [step_eq_instructionStep hr hp]
    simp [instructionStep, State.fetch, hreq]
  · rw [step_eq_inputCompletion hr hp]
    simp [inputCompletion, hreq]

/-- A waiting `in` with no request latched takes the first byte offered (rule R214). -/
theorem step_of_byte {j : Reg} {b : Byte} {rest : List Byte} (hr : s.runState = .running) (hreq : s.ckptReq = false)
    (hp : s.pendingIn = some j) (hin : s.input = b :: rest) : step s =
      .next (({ s with input := rest, pendingIn := none }.writeReg j b.toNat).postInstruction (s.pc - 2)) := by
  rw [step_eq_inputCompletion hr hp]
  simp [inputCompletion, hreq, hin]

theorem step_withCap (h : s.used < s.cap.toNat) (h' : s.used < c.toNat) (hstep : step s = .next t) :
    ∃ c', step (s.withCap c) = .next (t.withCap c') := by
  obtain ⟨hr, hcases⟩ := step_cases hstep
  rcases hcases with ⟨hreq, rfl⟩ | ⟨hreq, hp, hpc, rfl⟩ | ⟨hreq, hp, hpc, e, hdec, rfl⟩ |
    ⟨hreq, hp, hpc, i, rest, hdec, hexec⟩ | ⟨hreq, j, b, rest, hp, hin, rfl⟩
  · exact ⟨c, step_of_request (s := s.withCap c) hr hreq⟩
  · exact ⟨c, fetchPastMemoryHalts (s.withCap c) ⟨hr, hp, hreq⟩ hpc⟩
  · exact ⟨c, step_of_decode_error (s := s.withCap c) ⟨hr, hp, hreq⟩ hpc hdec⟩
  · rw [step_of_decode (s := s.withCap c) hr hp hreq hpc hdec]
    exact exec_withCap h h' hexec
  · rw [step_of_byte (s := s.withCap c) hr hreq hp hin]
    obtain ⟨c', hc'⟩ := State.signal_withCap
      (s := { s with input := rest, pendingIn := none }.writeReg j b.toNat) (s.pc - 2) .cont h.le h'.le
    exact ⟨c', congrArg _ hc'⟩

end

/-- Settles O59: the operand check and the execute phase do not meet the capacity where a slot is free, and the
signal only through the reconcile. -/
theorem capacityHasNoEffectOnValues : Obligations.CapacityHasNoEffectOnValues := by
  unfold Obligations.CapacityHasNoEffectOnValues
  exact fun _ _ _ h h' hstep => step_withCap h h' hstep

end Sys2Proof.Machine

/-! ## Proofs about the ALU instructions (43_alu.md) -/

namespace Sys2Proof.Machine

/-! ### The ALU's results and the write port's mask (rules R9, R22, R160) -/

section
variable {x y : Word}

/-- Words are equal exactly where their values are. -/
theorem alu_eq_toNat : alu .eq x.toNat y.toNat = if x = y then 1 else 0 := by
  simp only [alu, BitVec.toNat_inj]

/-- The two comparisons, the sum and the product stay in the 15-bit domain, whatever the inputs. -/
theorem alu_lt {f : AluFn} (hf : f = .eq ∨ f = .gt ∨ f = .add ∨ f = .mul) (x y : Nat) : alu f x y < 32768 := by
  rcases hf with rfl | rfl | rfl | rfl
  · exact (ite_le_one le_rfl zero_le_one).trans_lt (by decide)
  · exact (ite_le_one le_rfl zero_le_one).trans_lt (by decide)
  · exact Nat.mod_lt _ (by decide)
  · exact Nat.mod_lt _ (by decide)

theorem alu_mod_lt (x : Nat) {y : Word} (h : y ≠ 0) : alu .mod x y.toNat < y.toNat :=
  Nat.mod_lt x (Nat.pos_of_ne_zero fun h0 => h (BitVec.eq_of_toNat_eq h0))

theorem testBit_alu_and (k : Nat) : (alu .and x.toNat y.toNat).testBit k = (x.getLsbD k && y.getLsbD k) :=
  Nat.testBit_and ..

theorem testBit_alu_or (k : Nat) : (alu .or x.toNat y.toNat).testBit k = (x.getLsbD k || y.getLsbD k) :=
  Nat.testBit_or ..

/-- The exclusive or with `2^15 - 1` complements the low 15 bits. -/
theorem testBit_alu_not {k : Nat} (hk : k < 15) : (alu .not x.toNat 0).testBit k = !x.getLsbD k := by
  have hones : Nat.testBit 0x7FFF k = true := (Nat.testBit_two_pow_sub_one 15 k).trans (decide_eq_true hk)
  calc (alu .not x.toNat 0).testBit k = (Nat.testBit 0x7FFF k ^^ x.getLsbD k) := Nat.testBit_xor ..
    _ = !x.getLsbD k := by rw [hones, Bool.true_xor]

/-- The write port keeps bits 0 to 14 and clears the rest. -/
theorem getLsbD_mask15 (v k : Nat) : (mask15 v).getLsbD k = (decide (k < 15) && v.testBit k) := by
  rw [← BitVec.testBit_toNat, mask15_toNat]
  exact Nat.testBit_mod_two_pow v 15 k

/-- The write port tells no two values apart that agree mod 32768. -/
theorem mask15_congr {v w : Nat} (h : v % 32768 = w % 32768) : mask15 v = mask15 w :=
  congrArg (BitVec.ofNat 16) h

/-- The mask is 15-bit arithmetic's own truncation. -/
theorem mask15_eq_setWidth (v : Nat) : mask15 v = (BitVec.ofNat 15 v).setWidth 16 :=
  BitVec.eq_of_toNat_eq (by rw [mask15_toNat, BitVec.toNat_setWidth, BitVec.toNat_ofNat]; omega)

end

/-! ### What a register write of an ALU result leaves (rules R22, R113) -/

section
variable {s t : State} {d : Reg} {v n : Nat}

/-- A register write of a value in the 15-bit domain. -/
theorem wroteReg_of_lt (h : s.used ≤ s.cap.toNat) (d : Reg) (n : Nat) (hv : v < 32768) :
    WroteReg d v n s (((s.advance n).writeReg d v).postInstruction s.pc) := by
  have hwrote := wroteReg_postInstruction h d v n
  rwa [Nat.mod_eq_of_lt hv] at hwrote

/-- A register write whose value is stated as what the register then holds. -/
theorem WroteReg.readReg (h : WroteReg d v n s t) : WroteReg d (t.readReg d).toNat n s t := by
  obtain ⟨-, hrest⟩ := h
  exact ⟨rfl, hrest⟩

/-- A register write of a value whose low 15 bits are `p`, bit by bit. -/
theorem wroteReg_bits (h : s.used ≤ s.cap.toNat) (d : Reg) (n : Nat) {p : Nat → Bool}
    (hp : ∀ k, k < 15 → v.testBit k = p k) (ht : t = ((s.advance n).writeReg d v).postInstruction s.pc) :
    WroteReg d (t.readReg d).toNat n s t ∧ (∀ k, k < 15 → (t.readReg d).getLsbD k = p k) ∧
      (t.readReg d).getLsbD 15 = false := by
  have hread : t.readReg d = mask15 v := by simp [ht]
  refine ⟨(ht ▸ wroteReg_postInstruction h d v n).readReg, fun k hk => ?_, ?_⟩
  · rw [hread, getLsbD_mask15, decide_eq_true hk, Bool.true_and, hp k hk]
  · rw [hread, getLsbD_mask15, decide_eq_false (lt_irrefl 15), Bool.false_and]

end

/-! ### The eight instructions (rules R161 to R168, R170) -/

/-- Settles O22: a register write of the comparison's result, which is below 32768, so that the mask keeps it. -/
theorem eqAndGtWriteOneOrZero : Obligations.EqAndGtWriteOneOrZero := by
  unfold Obligations.EqAndGtWriteOneOrZero
  intro s d b c hb hc hused
  refine ⟨⟨_, exec_eq hb hc, ?_⟩, _, exec_gt hb hc, ?_⟩
  · rw [← alu_eq_toNat]
    exact wroteReg_of_lt hused d 4 (alu_lt (.inl rfl) _ _)
  · exact wroteReg_of_lt hused d 4 (alu_lt (.inr (.inl rfl)) _ _)

/-- Settles O23: a register write of the ALU's sum or product, which is reduced already, so that the mask keeps it. -/
theorem addAndMultWrapMod32768 : Obligations.AddAndMultWrapMod32768 := by
  unfold Obligations.AddAndMultWrapMod32768
  intro s d b c hb hc hused
  exact ⟨⟨_, exec_add hb hc, wroteReg_of_lt hused d 4 (alu_lt (.inr (.inr (.inl rfl))) _ _)⟩,
    _, exec_mult hb hc, wroteReg_of_lt hused d 4 (alu_lt (.inr (.inr (.inr rfl))) _ _)⟩

/-- Settles O24: 32768 divides 65536, and the mask of a sum or product is that of its terms' 15-bit truncations. -/
theorem lowBitArithmeticGivesSameResults : Obligations.LowBitArithmeticGivesSameResults := by
  unfold Obligations.LowBitArithmeticGivesSameResults
  intro x y
  have h16 (v : Nat) : v % 32768 = v % 65536 % 32768 := (Nat.mod_mod_of_dvd v (by decide)).symm
  have hadd : mask15 (alu .add x.toNat y.toNat) = mask15 (x.toNat + y.toNat) := mask15_congr (Nat.mod_mod ..)
  have hmul : mask15 (alu .mul x.toNat y.toNat) = mask15 (x.toNat * y.toNat) := mask15_congr (Nat.mod_mod ..)
  refine ⟨h16 _, h16 _, ?_, ?_, ?_, ?_⟩
  · rw [hadd, BitVec.toNat_add]
    exact mask15_congr (h16 _)
  · rw [hmul, BitVec.toNat_mul]
    exact mask15_congr (h16 _)
  · rw [hadd, mask15_eq_setWidth, BitVec.ofNat_add]
    rfl
  · rw [hmul, mask15_eq_setWidth, BitVec.ofNat_mul]
    rfl

/-- Settles O25: the remainder is below the divisor and the mask does not raise it; a zero divisor faults after the
advance. -/
theorem modWritesRemainderOrFaults : Obligations.ModWritesRemainderOrFaults := by
  unfold Obligations.ModWritesRemainderOrFaults
  intro s d b c hb hc
  refine ⟨fun hne hused => ?_, fun hzero => ?_⟩
  · have hwrote := wroteReg_postInstruction hused d (alu .mod (s.resolve b).toNat (s.resolve c).toNat) 4
    have hlt := (Nat.mod_le _ 32768).trans_lt (alu_mod_lt (s.resolve b).toNat hne)
    rw [exec_mod hb hc, if_neg hne]
    exact ⟨_, rfl, hwrote, hwrote.1.trans_lt hlt⟩
  · rw [exec_mod hb hc, if_pos hzero]
    exact ⟨_, rfl, faultedInExecute_raise s 4 _ _⟩

/-- Settles O26: the bits of the ALU's result, of which the mask keeps 0 to 14. -/
theorem andOrNotWorkBitwise : Obligations.AndOrNotWorkBitwise := by
  unfold Obligations.AndOrNotWorkBitwise
  intro s d b c hb hc hused
  exact ⟨⟨_, exec_and hb hc, wroteReg_bits hused d 4 (fun k _ => testBit_alu_and k) rfl⟩,
    ⟨_, exec_or hb hc, wroteReg_bits hused d 4 (fun k _ => testBit_alu_or k) rfl⟩,
    ⟨_, exec_not hb, wroteReg_bits hused d 3 (fun _ hk => testBit_alu_not hk) rfl⟩⟩

end Sys2Proof.Machine

/-! ## Proofs about control transfer (44_control.md): the jumps, `call` and `ret` -/

namespace Sys2Proof.Machine

/-! ### What a transfer leaves (rules R111, R113, R195) -/

/-- The instruction left `pc` at `q` and the stack `l`, changed no register, memory or port, and continued. -/
def Transfers (q : Count) (l : List Word) (s t : State) : Prop :=
  t.pc = q ∧ SameRegs s t ∧ SameMem s t ∧ t.stack = l ∧ SamePorts s t ∧ Continues s t

section
variable {s t : State} {l : List Word}

theorem transfers_postInstruction (h : l.length ≤ s.cap.toNat) (q : Count) :
    Transfers q l s ({ s with pc := q, stack := l }.postInstruction s.pc) :=
  ⟨by simp, State.postInstruction_readReg _ s.pc, fun x => by simp, by simp, ⟨by simp, by simp⟩,
    continues_postInstruction s.pc ⟨rfl, rfl, rfl, rfl, rfl⟩ ⟨rfl, rfl, rfl⟩ rfl h⟩

/-- A jump on condition `c` by an instruction of three words, which is all that `jt` and `jf` do. -/
theorem transfers_branch (h : s.used ≤ s.cap.toNat) (c : Prop) [Decidable c] (w : Word) :
    Transfers (if c then w.setWidth 32 else s.pc + 3) s.stack s
      ((if c then (s.advance 3).jump w else s.advance 3).postInstruction s.pc) := by
  split <;> exact transfers_postInstruction h _

/-- A target is zero-extended (rule R195). -/
theorem toNat_target (w : Word) : (w.setWidth 32).toNat = w.toNat :=
  BitVec.toNat_setWidth_of_le (by decide)

/-- The return address fits the 16 bits of a stack entry (rules R108, R193). -/
theorem toNat_returnAddress (h : s.pc.toNat + 2 ≤ 32768) :
    (BitVec.ofNat 16 (s.pc.toNat + 2)).toNat = s.pc.toNat + 2 := by
  rw [BitVec.toNat_ofNat]
  omega

/-- The entry `call` pushes is the low 16 bits of the address after its operand (rule R193). -/
theorem returnAddress_eq (s : State) : (s.pc + 2).setWidth 16 = BitVec.ofNat 16 (s.pc.toNat + 2) := by
  bv_omega

/-- After an instruction that pushed one entry, the reconciled capacity still has room for the stack of before. -/
theorem Continues.used_le_cap_of_push {w : Word} (h : Continues s t) (hstack : t.stack = s.stack ++ [w])
    (hroom : s.used < s.cap.toNat) (hmax : s.used < stackMaxBound) : s.used ≤ t.cap.toNat := by
  obtain ⟨-, -, hcap⟩ := h
  have hused : t.used = s.used + 1 := by simp [State.used, hstack]
  calc s.used ≤ t.used := hused ▸ Nat.le_succ _
    _ ≤ (reconciledCap t.used s.cap).toNat := le_reconciledCap (hused.trans_le hroom) (hused.trans_le hmax)
    _ = t.cap.toNat := by rw [hcap]

end

/-! ### The jumps (rules R190 to R192) -/

/-- Settles O27: `jmp` is a transfer to the zero-extended target. -/
theorem jmpSetsAbsoluteTarget : Obligations.JmpSetsAbsoluteTarget := by
  unfold Obligations.JmpSetsAbsoluteTarget
  intro s a ha hused
  obtain ⟨hpc, hframe⟩ := transfers_postInstruction hused ((s.resolve a).setWidth 32)
  exact ⟨_, exec_jmp ha, (congrArg _ hpc).trans (toNat_target _), hframe⟩

/-- Settles O28: `jt` and `jf` are one conditional transfer, on opposite conditions. -/
theorem jtAndJfJumpOnCondition : Obligations.JtAndJfJumpOnCondition := by
  unfold Obligations.JtAndJfJumpOnCondition
  intro s a b ha hb hused
  have hzero : (s.resolve a).toNat = 0 ↔ s.resolve a = 0 := BitVec.toNat_inj (y := 0)
  simp only [ne_eq, hzero]
  exact ⟨⟨_, exec_jt ha hb, transfers_branch hused _ _⟩, _, exec_jf ha hb, transfers_branch hused _ _⟩

/-! ### `call` and `ret` (rules R193, R194) -/

/-- Settles O29: the three cases of `exec_call`; with room it is a transfer with the return address pushed. -/
theorem callPushesReturnAddress : Obligations.CallPushesReturnAddress := by
  unfold Obligations.CallPushesReturnAddress
  intro s a ha hp
  refine ⟨fun hroom hmax => ?_, fun hfull => ?_, fun hroom hmax => ?_⟩
  · rw [exec_call ha, if_neg hroom.not_ge, if_neg hmax.not_ge, returnAddress_eq s]
    have hle : (s.stack ++ [BitVec.ofNat 16 (s.pc.toNat + 2)]).length ≤ s.cap.toNat := by
      rw [List.length_append, List.length_singleton]
      exact hroom
    obtain ⟨hpc, hregs, hmem, hstack, hrest⟩ := transfers_postInstruction hle ((s.resolve a).setWidth 32)
    exact ⟨_, rfl, hstack, (congrArg _ hpc).trans (toNat_target _), hregs, hmem, hrest⟩
  · rw [exec_call ha, if_pos hfull]
    exact ⟨_, rfl, faultedInExecute_raise s 2 _ _⟩
  · rw [exec_call ha, if_neg hroom.not_ge, if_pos hmax]
    exact ⟨_, rfl, faultedInExecute_raise s 2 _ _⟩

/-- Settles O30: `ret` is a transfer to the top entry on the shorter stack, or a stop after the advance. -/
theorem retPopsTargetOrHalts : Obligations.RetPopsTargetOrHalts := by
  unfold Obligations.RetPopsTargetOrHalts
  intro s
  refine ⟨fun l v hstack hle => ?_, exec_ret_nil⟩
  obtain ⟨hpc, hregs, hmem, hpopped, hrest⟩ := transfers_postInstruction hle (v.setWidth 32)
  exact ⟨_, exec_ret_concat hstack, hpopped, (congrArg _ hpc).trans (toNat_target v), hregs, hmem, hrest⟩

/-- Settles O31: the capacity the `call` leaves has room for the stack of before, so the `ret` continues, on the
return address. -/
theorem callThenRetReturnsPastCall : Obligations.CallThenRetReturnsPastCall := by
  unfold Obligations.CallThenRetReturnsPastCall
  intro s t u v a ha hp hroom hmax ⟨_, hbound⟩ hcall hstack hcap hret
  obtain ⟨t', ht', hpushed, -, -, -, -, hcont⟩ := (callPushesReturnAddress s a ha hp).1 hroom hmax
  cases ht'.symm.trans hcall
  have hle : s.used ≤ u.cap.toNat := hcap ▸ hcont.used_le_cap_of_push hpushed hroom (hmax.trans_le hbound)
  obtain ⟨v', hv', hpopped, hpc, -, -, -, ⟨hrun, -⟩, -⟩ := (retPopsTargetOrHalts u).1 _ _ (hstack.trans hpushed) hle
  cases hv'.symm.trans hret
  exact ⟨hpc.trans (toNat_returnAddress hp), hpopped, hrun⟩

end Sys2Proof.Machine

/-! ## Proofs about system and I/O (45_system_io.md): `halt`, `noop`, `out`, and both halves of `in` -/

namespace Sys2Proof.Machine

/-! ### The completion half of `in` (rule R214) -/

/-- The write port keeps a byte as it is, since every byte is below 32768 (rule R22). -/
theorem mask15_byte (b : Byte) : mask15 b.toNat = b.setWidth 16 := by
  have hlt : b.toNat < 32768 := b.isLt.trans (by decide)
  rw [mask15, Nat.mod_eq_of_lt hlt, BitVec.ofNat_toNat]

/-- The post-instruction check of a state `u` that has kept status, capacity and stack: it leaves the reconciled
capacity, or raises STACK_INVARIANT (rule R111). -/
theorem status_postInstruction {s u : State} (p : Count) (hstatus : SameStatus s u) (hstack : SameStack s u) :
    (s.used ≤ s.cap.toNat → SameStatus s (u.postInstruction p) ∧
      (u.postInstruction p).cap = reconciledCap s.used s.cap) ∧
    (s.cap.toNat < s.used → (u.postInstruction p).cap = s.cap ∧
      Faulted p .stackInvariant s.usedCount s (u.postInstruction p)) := by
  obtain ⟨hentries, hcap⟩ := hstack
  have hused : u.used = s.used := congrArg List.length hentries
  rw [← hused, ← hcap]
  refine ⟨fun hle => ?_, fun hlt => ?_⟩
  · rw [u.postInstruction_of_le hle]
    exact ⟨hstatus, rfl⟩
  · obtain ⟨-, hhalt, -⟩ := hstatus
    rw [u.postInstruction_of_lt hlt, State.usedCount, hused]
    exact ⟨rfl, rfl, rfl, rfl, rfl, hhalt⟩

/-- Settles O36: a latched request is taken; else the byte is consumed and written before the post-instruction check;
with neither, no step is enabled. -/
theorem inCompletionWritesByte : Obligations.InCompletionWritesByte := by
  unfold Obligations.InCompletionWritesByte
  intro s d hr hp
  refine ⟨step_of_request hr, fun hreq b rest hin => ?_, fun hreq hin t hstep => ?_⟩
  · refine ⟨_, step_of_byte hr hreq hp hin, by simp [mask15_byte], by simp, by simp, fun r hne => ?_,
      fun x => by simp, by simp, by simp, by simp, by simp [hreq], by simp, ?_⟩
    · simp [State.readReg_writeReg_of_ne _ _ hne]
    · exact status_postInstruction (s.pc - 2) ⟨rfl, rfl, rfl, rfl, rfl⟩ ⟨rfl, rfl⟩
  · obtain ⟨-, -, henabled⟩ := stepEnabledExactlyInRunning
    obtain ⟨-, hcan⟩ := (henabled s).1 ⟨t, hstep⟩
    simp [hp, hin, hreq] at hcan

/-! ### `halt`, `noop`, `out` and the issue half of `in` (rules R210 to R213) -/

/-- Settles O32: a stop after the advance. -/
theorem haltStopsRun : Obligations.HaltStopsRun := by
  unfold Obligations.HaltStopsRun
  intro s
  exact exec_halt

/-- Settles O33: `noop` is a transfer to the next address. -/
theorem noopOnlyAdvances : Obligations.NoopOnlyAdvances := by
  unfold Obligations.NoopOnlyAdvances
  intro s hused
  exact ⟨_, exec_noop, transfers_postInstruction hused (s.pc + 1)⟩

/-- Settles O34: the truncation to 8 bits is the low byte, and the check after the emission passes. -/
theorem outEmitsLowByte : Obligations.OutEmitsLowByte := by
  unfold Obligations.OutEmitsLowByte
  intro s a ha hused
  have hbyte : (s.resolve a).setWidth 8 = (s.resolve a).extractLsb' 0 8 :=
    BitVec.setWidth_eq_extractLsb' (by decide)
  refine ⟨_, exec_out ha, ?_, by simp, by simp, fun r => by simp, fun x => by simp, by simp, ?_⟩
  · rw [State.postInstruction_output, State.outByte_output, State.advance_output, hbyte]
  · exact continues_postInstruction s.pc ⟨rfl, rfl, rfl, rfl, rfl⟩ ⟨rfl, rfl, rfl⟩ rfl hused

/-- Settles O35: a wait after the advance. -/
theorem inIssueWaits : Obligations.InIssueWaits := by
  unfold Obligations.InIssueWaits
  intro s d
  exact exec_in

end Sys2Proof.Machine

/-! ## Proofs about exceptions (60_exceptions.md): the faults of the execute phase, and the checkpoint request from its
latch to the restored run -/

namespace Sys2Proof.Machine

/-! ### How an instruction ends ERRORED (rules R231 to R233) -/

/-- At `s`, the execute phase of `i` finds the condition of cause `c`, with fault value `v` (rule R231). -/
def State.ExecuteFault (s : State) (i : Instr) (c : FaultCause) (v : Count) : Prop :=
  (c = .divideByZero ∧ v = 0 ∧ ∃ x y z, i = .mod x y z ∧ s.resolve z = 0) ∨
  (c = .stackUnderflow ∧ v = 0 ∧ s.stack = [] ∧ ∃ a, i = .pop a) ∨
  (c = .memoryAddressOutOfBounds ∧ ∃ a b o, (i = .rmem a b ∧ o = b ∨ i = .wmem a b ∧ o = a) ∧
    32768 ≤ (s.resolve o).toNat ∧ v = (s.resolve o).setWidth 32) ∨
  (c = .stackInvariant ∧ s.cap.toNat ≤ s.used ∧ v = s.usedCount ∧ ∃ a, i = .push a ∨ i = .call a) ∨
  (c = .stackOverflow ∧ s.used < s.cap.toNat ∧ s.config.stackMax ≤ s.used ∧ v = s.usedCount ∧
    ∃ a, i = .push a ∨ i = .call a)

section
variable {s t u : State} {i : Instr}

/-- A continuing instruction that has kept status and capacity ends ERRORED only by the post-instruction check. -/
theorem faulted_postInstruction {p : Count} (hr : s.runState = .running) (ht : (u.postInstruction p).runState = .errored)
    (hstatus : SameStatus s u) (hcap : u.cap = s.cap) :
    s.cap.toNat < (u.postInstruction p).used ∧
      Faulted p .stackInvariant (u.postInstruction p).usedCount s (u.postInstruction p) := by
  obtain ⟨hrun, hhalt, -⟩ := hstatus
  rcases u.postInstruction_cases p with ⟨hlt, e⟩ | ⟨-, e⟩ <;> rw [e] at ht ⊢
  · exact ⟨hcap ▸ hlt, rfl, rfl, rfl, rfl, hhalt⟩
  · cases (hrun.trans hr).symm.trans ht

/-- With a free slot before it, a push does not fail the post-instruction check. -/
theorem not_errored_of_push {w : Word} {p : Count} (hr : s.runState = .running) (hroom : s.used < s.cap.toNat)
    (ht : (u.postInstruction p).runState = .errored) (hstatus : SameStatus s u) (hcap : u.cap = s.cap)
    (hstack : u.stack = s.stack ++ [w]) : False := by
  obtain ⟨hlt, -⟩ := faulted_postInstruction hr ht hstatus hcap
  have hused : u.used = s.used + 1 := by simp [State.used, hstack]
  rw [State.postInstruction_used, hused] at hlt
  omega

/-- An instruction that passed the operand check and ends ERRORED faulted in its execute phase, right after the
advance, or is no `push` or `call` and failed the post-instruction check. -/
theorem Effect.errored_cases (he : Effect s i t) (hw : i.wellFormed = true) (hr : s.runState = .running)
    (ht : t.runState = .errored) :
    (∃ c v, s.ExecuteFault i c v ∧ t = (s.advance i.length).raise s.pc c v) ∨
    ((∀ a, i ≠ .push a ∧ i ≠ .call a) ∧ s.cap.toNat < t.used ∧ Faulted s.pc .stackInvariant t.usedCount s t) := by
  have hstatus : SameStatus s s := ⟨rfl, rfl, rfl, rfl, rfl⟩
  cases he with
  | illFormed _ _ _ hill => cases hill.symm.trans hw
  | stopped => cases ht
  | waits => cases hr.symm.trans ht
  | faulted _ c v _ hfault => exact .inl ⟨c, v, hfault, rfl⟩
  | pushed _ _ hroom | called _ _ hroom => exact (not_errored_of_push hr hroom ht hstatus rfl rfl).elim
  | wroteMem | emitted | popped | returned =>
    exact .inr ⟨fun _ => ⟨nofun, nofun⟩, faulted_postInstruction hr ht hstatus rfl⟩
  | wroteReg _ d _ _ hdest =>
    refine .inr ⟨fun a => ⟨?_, ?_⟩, faulted_postInstruction hr ht hstatus rfl⟩ <;> rintro rfl <;> cases hdest
  | advanced _ _ hi =>
    refine .inr ⟨fun a => ?_, faulted_postInstruction hr ht hstatus rfl⟩
    rcases hi with ⟨_, _, rfl, -⟩ | ⟨_, _, rfl, -⟩ | rfl <;> exact ⟨nofun, nofun⟩
  | jumped _ _ _ _ hi =>
    refine .inr ⟨fun a => ?_, faulted_postInstruction hr ht hstatus rfl⟩
    rcases hi with rfl | ⟨_, rfl, -⟩ | ⟨_, rfl, -⟩ <;> exact ⟨nofun, nofun⟩

end

/-- Settles O39: the execute phase's faults by the table, each right after the advance, and the post-instruction
STACK_INVARIANT, which no `push` or `call` raises. -/
theorem executeFaultsArePrecise : Obligations.ExecuteFaultsArePrecise := by
  unfold Obligations.ExecuteFaultsArePrecise
  intro i s t hr hw hexec ht
  rcases (effect_of_exec hexec).errored_cases hw hr ht with
    ⟨c, v, hfault, rfl⟩ | ⟨hother, hlt, -, hcause, hpc, hvalue, hhalt⟩
  · obtain ⟨-, hadvance, hdata⟩ := faultedInExecute_raise s i.length c v
    refine ⟨rfl, rfl, ?_, fun _ => ⟨hdata, hadvance⟩⟩
    rcases hfault with ⟨hc, hv, hmod⟩ | ⟨hc, hv, hnil, hpop⟩ | ⟨hc, a, b, o, hi, haddr, hv⟩ |
      ⟨hc, hfull, hv, hi⟩ | ⟨hc, hroom, hmax, hv, hi⟩
    · exact .inr (.inl ⟨hc, hv, hmod⟩)
    · exact .inl ⟨hc, hv, List.length_eq_zero_iff.2 hnil, hpop⟩
    · exact .inr (.inr (.inl ⟨hc, a, b, o, hi, haddr, hv⟩))
    · exact .inr (.inr (.inr (.inr ⟨hc, hv, .inr ⟨hfull, hi⟩⟩)))
    · exact .inr (.inr (.inr (.inl ⟨hc, hv, hroom, hmax, hi⟩)))
  · refine ⟨hpc, hhalt, .inr (.inr (.inr (.inr ⟨hcause, hvalue, .inl hlt⟩))), fun h => ?_⟩
    obtain ⟨a, hi⟩ := h.resolve_left (not_not.2 hcause)
    exact absurd hi (not_or.2 (hother a))

/-! ### The checkpoint request (rules R239, R241, R242) -/

section
variable {s : State}

theorem State.requestCheckpoint_of_running (h : s.runState = .running) :
    s.requestCheckpoint = { s with ckptReq := true } := if_pos h

theorem State.requestCheckpoint_of_ended (h : s.runState ≠ .running) : s.requestCheckpoint = s := if_neg h

theorem State.requestCheckpoint_idem (s : State) : s.requestCheckpoint.requestCheckpoint = s.requestCheckpoint := by
  by_cases h : s.runState = .running
  · rw [State.requestCheckpoint_of_running h]
    exact State.requestCheckpoint_of_running h
  · rw [State.requestCheckpoint_of_ended h, State.requestCheckpoint_of_ended h]

end

/-- Settles O37: `takeCheckpoint` is the step of both halves of the core where a request is latched. -/
theorem latchedRequestEndsRun : Obligations.LatchedRequestEndsRun := by
  unfold Obligations.LatchedRequestEndsRun
  intro s hr hreq
  exact step_of_request hr hreq

/-- Settles O38: the latch by the run state. -/
theorem requestIsLatchedWhileRunning : Obligations.RequestIsLatchedWhileRunning := by
  unfold Obligations.RequestIsLatchedWhileRunning
  exact ⟨fun _ => State.requestCheckpoint_of_running, State.requestCheckpoint_idem,
    fun _ => State.requestCheckpoint_of_ended⟩

/-! ### Resuming a run from its checkpoint (rules R67, R241, R271) -/

/-- A restore of the image of a RUNNING state at an instruction boundary gives all of that state but the port queues
and the latch: the status it clears was clear. -/
theorem State.restored_image {s u : State} (h : s.statusWf) (hr : s.runState = .running) (hp : s.pendingIn = none)
    (hconfig : u.config = s.config) :
    u.restored s.image = { s with ckptReq := false, input := u.input, output := u.output } := by
  obtain ⟨hhalt, hcause, hpc, hvalue⟩ := State.status_of_running h hr
  simp only [State.restored, State.image, hr, hp, hconfig, hhalt, hcause, hpc, hvalue]

/-- Settles O44: the step leaves the image of the state as it is, the file gives the image back, and the restore gives
the state back. -/
theorem checkpointFileResumesRun : Obligations.CheckpointFileResumesRun := by
  unfold Obligations.CheckpointFileResumesRun
  intro s t u ⟨hmem, hused, ⟨_, hbound⟩, hstatus⟩ hr hp hstep hu hconfig
  cases (step_of_request (s := { s with ckptReq := true }) hr rfl).symm.trans hstep
  have hread : imageOfFile (checkpointFile s.image) = some s.image :=
    checkpointFileRoundTrip s.image hmem ((hused.trans hbound).trans_lt (by decide))
  have hrestore : u.restore s.image = some (u.restored s.image) :=
    State.restore_eq_some.2 ⟨hu, hconfig ▸ hused, rfl⟩
  exact ⟨s.image, s.image, u.restored s.image, rfl, hread, hrestore, rfl,
    State.restored_image hstatus hr hp hconfig⟩

end Sys2Proof.Machine

/-! ## Proofs about reset and the host's acts (70_reset_and_hazards.md): program load, reset, restore, and what the host
refuses -/

namespace Sys2Proof.Machine

/-! ### Program load, reset and restore (rules R270, R271) -/

@[simp] theorem State.readReg_programLoaded (s : State) (ws : List Word) (r : Reg) :
    (s.programLoaded ws).readReg r = 0 := by
  have hzero : ∀ r : Reg, State.reset.readReg r = 0 := by decide
  exact hzero r

/-- Loading no words leaves the reset state as it is. -/
theorem State.programLoaded_reset_nil : State.reset.programLoaded [] = State.reset := rfl

/-- Settles O41: the loaded memory by `Memory.read_ofWords`, every other state by the load's own record. -/
theorem programLoadSetsEveryState : Obligations.ProgramLoadSetsEveryState := by
  unfold Obligations.ProgramLoadSetsEveryState
  intro s ws hr hlen
  have hload : s.programLoad ws = some (s.programLoaded ws) :=
    State.programLoad_eq_some.2 ⟨hr, by rwa [memWords_eq], rfl⟩
  have himage : ∀ k (h : k < ws.length), (s.programLoaded ws).mem.read k = ws[k] := fun k h =>
    (Memory.read_ofWords ws k).trans (List.getD_eq_getElem ws 0 h)
  have hzeros : ∀ k, ws.length ≤ k → (s.programLoaded ws).mem.read k = 0 := fun k h =>
    (Memory.read_ofWords ws k).trans (List.getD_eq_default ws 0 h)
  exact ⟨s.programLoaded ws, hload, himage, hzeros, State.readReg_programLoaded s ws,
    rfl, rfl, rfl, rfl, rfl, rfl, rfl, rfl, rfl, rfl⟩

/-- Settles O42: reset is a load of no words, which meets the invariants. -/
theorem resetMeetsInvariants : Obligations.ResetMeetsInvariants := by
  unfold Obligations.ResetMeetsInvariants
  have hinv : State.reset.loadInv :=
    State.programLoaded_reset_nil ▸ State.loadInv_programLoaded (ws := []) (by decide) (Nat.zero_le _)
  exact ⟨rfl, State.readReg_programLoaded State.reset [], rfl, rfl, rfl, rfl, rfl, rfl, hinv.1, hinv⟩

/-- Settles O43: an image that is not refused is restored field by field. -/
theorem restoreSetsEveryState : Obligations.RestoreSetsEveryState := by
  unfold Obligations.RestoreSetsEveryState
  intro s img hr hused
  exact ⟨s.restored img, State.restore_eq_some.2 ⟨hr, hused, rfl⟩,
    rfl, rfl, rfl, rfl, rfl, rfl, rfl, rfl, rfl, rfl, rfl, rfl, rfl⟩

/-! ### A file that is read holds the bytes of what was read (rules R52, R68) -/

/-- A word is read from its own bytes. -/
theorem wordBytes_append (hi lo : Byte) : wordBytes (hi ++ lo) = [lo, hi] := by
  rw [wordBytes, BitVec.extractLsb'_append_eq_right, BitVec.extractLsb'_append_eq_left]

/-- A 32-bit integer is read from its own bytes. -/
theorem countBytes_append (b0 b1 b2 b3 : Byte) : countBytes (b3 ++ b2 ++ b1 ++ b0) = [b0, b1, b2, b3] := by
  have h8 : (b3 ++ b2 ++ b1 ++ b0).extractLsb' 8 8 = b1 :=
    (BitVec.extractLsb'_append_eq_of_le (by decide)).trans BitVec.extractLsb'_append_eq_right
  have h16 : (b3 ++ b2 ++ b1 ++ b0).extractLsb' 16 8 = b2 :=
    (BitVec.extractLsb'_append_eq_of_le (by decide)).trans <|
      (BitVec.extractLsb'_append_eq_of_le (by decide)).trans BitVec.extractLsb'_append_eq_right
  have h24 : (b3 ++ b2 ++ b1 ++ b0).extractLsb' 24 8 = b3 :=
    (BitVec.extractLsb'_append_eq_of_le (by decide)).trans <|
      (BitVec.extractLsb'_append_eq_of_le (by decide)).trans BitVec.extractLsb'_append_eq_left
  rw [countBytes, BitVec.extractLsb'_append_eq_right, h8, h16, h24]

theorem eq_of_wordsOfBytes {bs : List Byte} {ws : List Word} (h : wordsOfBytes bs = some ws) :
    bs = ws.flatMap wordBytes := by
  induction bs using wordsOfBytes.induct generalizing ws with
  | case1 => cases h; rfl
  | case2 => cases h
  | case3 lo hi rest hrest => simp only [wordsOfBytes, hrest, reduceCtorEq] at h
  | case4 lo hi rest ws' hrest ih =>
    simp only [wordsOfBytes, hrest, Option.some.injEq] at h
    rw [← h, List.flatMap_cons, wordBytes_append, ← ih hrest]
    rfl

theorem eq_of_takeWords {n : Nat} {bs rest : List Byte} {ws : List Word} (h : takeWords n bs = some (ws, rest)) :
    ws.length = n ∧ bs = ws.flatMap wordBytes ++ rest := by
  induction n, bs using takeWords.induct generalizing ws rest with
  | case1 bs => cases h; exact ⟨rfl, rfl⟩
  | case2 n lo hi bs hread => simp only [takeWords, hread, reduceCtorEq] at h
  | case3 n lo hi bs ws' rest' hread ih =>
    simp only [takeWords, hread, Option.some.injEq, Prod.mk.injEq] at h
    obtain ⟨rfl, rfl⟩ := h
    obtain ⟨hlen, hbytes⟩ := ih hread
    refine ⟨congrArg (· + 1) hlen, ?_⟩
    rw [List.flatMap_cons, wordBytes_append, hbytes]
    rfl
  | case4 n bs hshort =>
    rw [takeWords] at h
    · cases h
    · exact hshort

theorem eq_of_takeCount {bs rest : List Byte} {c : Count} (h : takeCount bs = some (c, rest)) :
    bs = countBytes c ++ rest := by
  match bs, h with
  | b0 :: b1 :: b2 :: b3 :: _, rfl => rw [countBytes_append]; rfl

theorem countBytes_injective : Function.Injective countBytes := fun c d h => by
  have hread := (takeCount_countBytes c []).symm.trans (h ▸ takeCount_countBytes d [])
  simpa only [Option.some.injEq, Prod.mk.injEq, and_true] using hread

/-- A program file that is read holds two bytes for each word of an image that fits memory (rule R273). -/
theorem length_of_programOfFile {bs : List Byte} {ws : List Word} (h : programOfFile bs = some ws) :
    bs.length = 2 * ws.length ∧ ws.length ≤ memWords := by
  unfold programOfFile at h
  split at h
  case h_1 => cases h
  case h_2 ws' hread =>
    obtain ⟨hfit, hws⟩ := Option.ite_none_left_eq_some.1 h
    cases hws
    exact ⟨eq_of_wordsOfBytes hread ▸ length_flatMap_wordBytes ws, Nat.not_lt.1 hfit⟩

/-! ### Checkpoint files cut off before their end (rules R68, R273) -/

theorem Memory.map_read_ofWords {ws : List Word} (h : ws.length = memWords) :
    (List.range memWords).map (Memory.ofWords ws).read = ws := by
  refine List.ext_getElem (by rw [List.length_map, List.length_range, h]) fun k _ hk => ?_
  rw [List.getElem_map, List.getElem_range, Memory.read_ofWords, List.getD_eq_getElem ws 0 hk]

theorem regs_toList_ofFn {ws : List Word} (h : ws.length = 8) :
    (Vector.ofFn fun i : Reg => ws.getD i.val 0).toList = ws := by
  refine List.ext_getElem (by rw [Vector.length_toList, h]) fun k _ hk => ?_
  rw [Vector.getElem_toList, Vector.getElem_ofFn, List.getD_eq_getElem ws 0 hk]

/-- A checkpoint file that is read begins with the file of the image read from it. -/
theorem eq_of_imageOfFile {bs : List Byte} {img : StateImage} (h : imageOfFile bs = some img) :
    img.stack.length < 2 ^ 32 ∧ ∃ rest, bs = checkpointFile img ++ rest := by
  simp only [imageOfFile, Option.bind_eq_bind, Option.bind_eq_some_iff, Prod.exists] at h
  obtain ⟨mem, _, hmem, regs, _, hregs, used, _, hused, cap, _, hcap, stack, _, hstack, pc, rest, hpc, himg⟩ := h
  cases himg
  obtain ⟨hmemLen, rfl⟩ := eq_of_takeWords hmem
  obtain ⟨hregsLen, rfl⟩ := eq_of_takeWords hregs
  obtain rfl := eq_of_takeCount hused
  obtain rfl := eq_of_takeCount hcap
  obtain ⟨hstackLen, rfl⟩ := eq_of_takeWords hstack
  obtain rfl := eq_of_takeCount hpc
  refine ⟨hstackLen ▸ used.isLt, rest, ?_⟩
  simp only [checkpointFile, Memory.map_read_ofWords hmemLen, regs_toList_ofFn hregsLen, hstackLen,
    BitVec.ofNat_toNat, BitVec.setWidth_eq, List.append_assoc]

/-- No checkpoint file is a proper beginning of another: both hold their depth at the same place. -/
theorem eq_nil_of_checkpointFile_append {img img' : StateImage} {rest : List Byte} (h : img.stack.length < 2 ^ 32)
    (h' : img'.stack.length < 2 ^ 32) (heq : checkpointFile img = checkpointFile img' ++ rest) : rest = [] := by
  have hfields := heq
  simp only [checkpointFile, List.append_assoc] at hfields
  obtain ⟨-, hfields⟩ := List.append_inj hfields (by simp only [length_flatMap_wordBytes, List.length_map])
  obtain ⟨-, hfields⟩ := List.append_inj hfields (by simp only [length_flatMap_wordBytes, Vector.length_toList])
  obtain ⟨hcount, -⟩ := List.append_inj hfields rfl
  have hused : img.stack.length = img'.stack.length := by
    have := congrArg BitVec.toNat (countBytes_injective hcount)
    rwa [BitVec.toNat_ofNat, BitVec.toNat_ofNat, Nat.mod_eq_of_lt h, Nat.mod_eq_of_lt h'] at this
  have hlen := congrArg List.length heq
  rw [List.length_append, checkpointFileSize, checkpointFileSize, hused] at hlen
  exact List.eq_nil_of_length_eq_zero (by omega)

/-- Settles O48: whatever is read or taken meets the bounds, so what does not meet them is refused. -/
theorem hostRefusesBadImages : Obligations.HostRefusesBadImages := by
  unfold Obligations.HostRefusesBadImages
  refine ⟨?odd, ?long, ?image, ?cut, ?read, ?deep, ?running⟩
  case odd =>
    refine fun bs hodd => Option.eq_none_iff_forall_ne_some.2 fun ws hread => ?_
    have hlen := (length_of_programOfFile hread).1
    omega
  case long =>
    refine fun bs hlong => Option.eq_none_iff_forall_ne_some.2 fun ws hread => ?_
    obtain ⟨hlen, hfit⟩ := length_of_programOfFile hread
    rw [memWords_eq] at hfit
    omega
  case image =>
    refine fun s ws hlong => Option.eq_none_iff_forall_ne_some.2 fun t hload => ?_
    obtain ⟨-, hfit, -⟩ := State.programLoad_eq_some.1 hload
    exact Nat.not_lt.2 hfit (by rwa [memWords_eq])
  case cut =>
    refine fun img bs cut hused hcut hfile => Option.eq_none_iff_forall_ne_some.2 fun img' hread => hcut ?_
    obtain ⟨hused', rest, hbytes⟩ := eq_of_imageOfFile hread
    rw [hbytes, List.append_assoc] at hfile
    exact (List.append_eq_nil_iff.1 (eq_nil_of_checkpointFile_append hused hused' hfile)).2
  case read =>
    intro bs img hread
    obtain ⟨-, rest, hbytes⟩ := eq_of_imageOfFile hread
    rw [hbytes, List.length_append, checkpointFileSize]
    exact Nat.le_add_right _ _
  case deep =>
    refine fun s img hdeep => Option.eq_none_iff_forall_ne_some.2 fun t hrestore => ?_
    obtain ⟨-, hused, -⟩ := State.restore_eq_some.1 hrestore
    exact Nat.not_lt.2 hused hdeep
  case running => exact fun s hr => ⟨fun ws => if_pos hr, fun img => if_pos hr, if_pos hr⟩

end Sys2Proof.Machine
